-- ==== Sys2Proof/Word.lean ====
section
/-! DEFINITION. The values on the block's wires: the 4-bit command word, the 2-bit status, the 2-bit input symbol. -/

namespace Sys2Proof

/-- `req_cmd[3:0]` (30_encoding.md R45): `mode rev op`, bit 0 least significant. -/
abbrev Cmd := BitVec 4

/-- `rsp_st[1:0]` (60_exceptions.md R135). -/
abbrev StCode := BitVec 2

/-- One input character on its two wires `{x, b}` (20_memory.md R26): `x = sym[1]` marks a non-binary character,
`b = sym[0]` is the bit of a binary one. -/
structure Sym where
  x : Bool
  b : Bool
deriving DecidableEq, Repr

/-- The symbol whose two wires are low: the character `'0'` (20_memory.md R26). -/
def Sym.zero : Sym := ⟨false, false⟩

/-- The binary character of a bit: `'0'` is `{0,0}`, `'1'` is `{0,1}` (20_memory.md R26, 30_encoding.md R53). -/
def Sym.ofBit (v : Bool) : Sym := ⟨false, v⟩

end Sys2Proof
end

