-- ==== Sys2Proof/Config.lean ====
section
/-! DEFINITION. What an implementation fixes (the capacity `NMAX`) and the values the spec leaves open (free values: opaque
constants without a body, so that no proof can see what they are). -/

namespace Sys2Proof

/-- The capacity parameter `NMAX` of 00_scope.md R3: a natural number, or unbounded (`NMAX = ∞`). -/
inductive Capacity where
  | bounded (nmax : Nat)
  | unbounded
deriving DecidableEq, Repr

/-- 00_scope.md R3: `NMAX >= 71`, or `NMAX = ∞`. -/
def Capacity.legal : Capacity → Bool
  | .bounded nmax => decide (71 ≤ nmax)
  | .unbounded => true

/-- The capacity of the machine `State.reset` (DESIGN CHOICE, log 1): the smallest the spec allows, the one its programs
start with (95_test_vectors.md section 4). Statements quantify over every capacity. -/
def Config.resetCapacity : Capacity := .bounded 71

/-- Free value (log 4, log 5): what stands on `rsp_st` when the spec leaves it unspecified. -/
opaque Config.freeStatus : Nat → StCode

/-- Free value (log 4, log 5): what stands on `rsp_len` when the spec leaves it unspecified. -/
opaque Config.freeLen : Nat → Nat

/-- Free value (log 4, log 5): what stands on `rsp_bit` when the spec leaves it unspecified. -/
opaque Config.freeBits : Nat → List Bool

/-- Free value (log 4, log 5): what stands on `rsp_idx` when the spec leaves it unspecified. -/
opaque Config.freeIdx : Nat → List Nat

end Sys2Proof
end

