-- ==== Sys2Proof/Machine/Widths.lean ====
section
/-! DEFINITION. The widths that follow from the capacity (00_scope.md R3) and the narrowing of a value to its port. -/

namespace Sys2Proof

/-- `LW = floor(log2(NMAX)) + 1`; with `NMAX = ∞` lengths are naturals and there is no width (00_scope.md R3). -/
def Capacity.lw : Capacity → Option Nat
  | .bounded nmax => some (Nat.log2 nmax + 1)
  | .unbounded => none

/-- `RMAX = LW` (00_scope.md R3): the number of `rsp_idx` slots. -/
def Capacity.rmax (cap : Capacity) : Option Nat := cap.lw

/-- The number is a value of an `LW`-bit field: below `2^LW` (10_state.md R15). -/
def Capacity.lenFits (cap : Capacity) (v : Nat) : Bool :=
  match cap.lw with
  | some w => decide (v < 2 ^ w)
  | none => true

/-- The comparison `v > NMAX`, never true when `NMAX = ∞` (60_exceptions.md R137). -/
def Capacity.exceeded (cap : Capacity) (v : Nat) : Bool :=
  match cap with
  | .bounded nmax => decide (nmax < v)
  | .unbounded => false

/-- The list is a value of the symbol array of a request that needs `count` symbols: `NMAX` elements (10_state.md R15); with
`NMAX = ∞`, where an array has no last element, any list that holds the needed symbols (log 11). -/
def Capacity.symsFit (cap : Capacity) (count : Nat) (sym : List Sym) : Bool :=
  match cap with
  | .bounded nmax => decide (sym.length = nmax)
  | .unbounded => decide (count ≤ sym.length)

/-- The symbol array with every wire low. -/
def Capacity.zeroSyms : Capacity → List Sym
  | .bounded nmax => List.replicate nmax Sym.zero
  | .unbounded => []

/-- A number put on an `LW`-bit port (10_state.md R16). -/
def Capacity.fitLen (cap : Capacity) (v : Nat) : Nat :=
  match cap.lw with
  | some w => v % 2 ^ w
  | none => v

/-- A bit string put on the port array `rsp_bit[0..NMAX-1]`: the elements after it are 0 (10_state.md R16, 20_memory.md R30).
With `NMAX = ∞` the list is left as it is (log 11). -/
def Capacity.fitBits (cap : Capacity) (l : List Bool) : List Bool :=
  match cap with
  | .bounded nmax => (l ++ List.replicate nmax false).take nmax
  | .unbounded => l

/-- An index list put on the port array `rsp_idx[0..RMAX-1]` of `LW`-bit elements, the rest 0 (10_state.md R16). -/
def Capacity.fitIdx (cap : Capacity) (l : List Nat) : List Nat :=
  match cap.rmax with
  | some slots => (l.map cap.fitLen ++ List.replicate slots 0).take slots
  | none => l

end Sys2Proof
end

