-- ==== Sys2Proof/Syntax.lean ====
section
/-! DEFINITION. The five operations, one constructor per row of spec/opcode_table.json, and the request as the ports carry it. -/

namespace Sys2Proof

/-- An operation with the fields of its command word and its length operand (30_encoding.md R45 to R50, section 3).
A command bit that the operation ignores (R50) is kept as an argument, so that no bit of an encoding is dropped.
The operand string `req_sym` is read from the ports (20_memory.md R28, R29). -/
inductive Instr where
  /-- `IDX.O len`: `req_cmd = 0 x 00`; `rev` is the ignored bit. -/
  | idxO (rev : Bool) (len : Nat)
  /-- `IDX.I len`: `req_cmd = 1 x 00`; `rev` is the ignored bit. -/
  | idxI (rev : Bool) (len : Nat)
  /-- `ENC` (`ENC.R` when `rev`): `req_cmd = x r 01`; `mode` is the ignored bit. -/
  | enc (mode rev : Bool) (len : Nat)
  /-- `DEC` (`DEC.R` when `rev`): `req_cmd = x r 10`; `mode` is the ignored bit. -/
  | dec (mode rev : Bool) (len : Nat)
  /-- `COR` (`COR.R` when `rev`): `req_cmd = x r 11`; `mode` is the ignored bit. -/
  | cor (mode rev : Bool) (len : Nat)
deriving DecidableEq, Repr

/-- The length operand of an operation (30_encoding.md R49). -/
def Instr.len : Instr → Nat
  | .idxO _ len => len
  | .idxI _ len => len
  | .enc _ _ len => len
  | .dec _ _ len => len
  | .cor _ _ len => len

/-- The request `(cmd, len, sym)` of 30_encoding.md R45, as the host drives it on the ports of 10_state.md R15. -/
structure Request where
  cmd : Cmd
  len : Nat
  sym : List Sym
deriving DecidableEq, Repr

end Sys2Proof
end

