-- ==== Sys2Proof/WellFormed.lean ====
section
/-! DEFINITION. What can stand on the request ports: the length field is `LW` bits wide and the symbol array has `NMAX`
elements (10_state.md R15). Every command word is an operation (30_encoding.md R51), so nothing is checked of it. -/

namespace Sys2Proof

/-- The operation can be requested of a block of this capacity: its length operand is a value of the `LW`-bit field
(30_encoding.md R49). -/
def Instr.wf (cap : Capacity) (i : Instr) : Bool := cap.lenFits i.len

/-- How many symbols of its operand string a request needs: none for `IDX` (`op = 00`), which ignores the whole of `sym`
(30_encoding.md R50), `len` for the others (R49). -/
def Request.symbolsNeeded (r : Request) : Nat := if r.cmd.getLsbD 1 || r.cmd.getLsbD 0 then r.len else 0

/-- The request can stand on the ports of a block of this capacity (10_state.md R15). -/
def Request.presentable (cap : Capacity) (r : Request) : Bool :=
  cap.lenFits r.len && cap.symsFit r.symbolsNeeded r.sym

end Sys2Proof
end

