-- ==== Sys2Proof/Decode.lean ====
section
/-! DEFINITION. The decoder of a request's command word and length field, the encoder written from the same tables
(30_encoding.md R45 to R49, section 3), and the table's rows. -/

namespace Sys2Proof

/-- Why the decoder turns port values away. No request that stands on the ports is turned away (30_encoding.md R51). -/
inductive Reject where
  /-- The number is not a value of the `LW`-bit `req_len` field (30_encoding.md R49: the field cannot express it). -/
  | lenTooWide
deriving DecidableEq, Repr

/-- `req_cmd[3]` (30_encoding.md R48): false is sizing-for-output, true sizing-for-input. -/
def Cmd.mode (cmd : Cmd) : Bool := cmd.getLsbD 3

/-- `req_cmd[2]` (30_encoding.md R47): true is reversed. -/
def Cmd.rev (cmd : Cmd) : Bool := cmd.getLsbD 2

/-- The operation that the command word selects (30_encoding.md R46, section 3), with its length operand.
The match is on `op = req_cmd[1:0]`, most significant bit first; for `IDX` the `mode` bit tells the two rows apart. -/
def decodeCmd (cmd : Cmd) (len : Nat) : Instr :=
  match cmd.getLsbD 1, cmd.getLsbD 0 with
  | false, false => if Cmd.mode cmd then .idxI (Cmd.rev cmd) len else .idxO (Cmd.rev cmd) len
  | false, true => .enc (Cmd.mode cmd) (Cmd.rev cmd) len
  | true, false => .dec (Cmd.mode cmd) (Cmd.rev cmd) len
  | true, true => .cor (Cmd.mode cmd) (Cmd.rev cmd) len

/-- The decoder: total on any pair of numbers, it turns away by name a length that its port cannot carry. -/
def decode (cap : Capacity) (cmd : Cmd) (len : Nat) : Except Reject Instr :=
  if cap.lenFits len then .ok (decodeCmd cmd len) else .error .lenTooWide

/-- The command word `mode rev op` from its three fields: `mode*8 + rev*4 + op` (30_encoding.md R45, R53). -/
def commandWord (mode rev : Bool) (op : BitVec 2) : Cmd :=
  BitVec.ofBool mode ++ BitVec.ofBool rev ++ op

/-- The encoder: the command word and the length field of an operation (30_encoding.md R46 to R49). -/
def encode : Instr → Cmd × Nat
  | .idxO rev len => (commandWord false rev 0b00#2, len)
  | .idxI rev len => (commandWord true rev 0b00#2, len)
  | .enc mode rev len => (commandWord mode rev 0b01#2, len)
  | .dec mode rev len => (commandWord mode rev 0b10#2, len)
  | .cor mode rev len => (commandWord mode rev 0b11#2, len)

/-- One row of the opcode map (30_encoding.md section 3): a command word selects the row when
`(req_cmd & mask) == match`. -/
structure TableRow where
  mnemonic : String
  pattern : Cmd
  mask : Cmd
deriving DecidableEq, Repr

/-- The opcode map of 30_encoding.md section 3. -/
def opcodeMap : List TableRow :=
  [⟨"IDX.O", 0x0#4, 0xB#4⟩, ⟨"IDX.I", 0x8#4, 0xB#4⟩, ⟨"ENC", 0x1#4, 0x3#4⟩, ⟨"DEC", 0x2#4, 0x3#4⟩,
   ⟨"COR", 0x3#4, 0x3#4⟩]

/-- The row selects the command word. -/
def TableRow.selects (row : TableRow) (cmd : Cmd) : Bool := cmd &&& row.mask == row.pattern

/-- The mnemonic of an operation, as the opcode map spells it. -/
def Instr.mnemonic : Instr → String
  | .idxO _ _ => "IDX.O"
  | .idxI _ _ => "IDX.I"
  | .enc _ _ _ => "ENC"
  | .dec _ _ _ => "DEC"
  | .cor _ _ _ => "COR"

/-- The command wires of a word numbered as spec/opcode_table.json numbers it: its low four bits are `req_cmd[3:0]`; bits
above them have no wire (log 12). -/
def tableCommand (nbits w : Nat) : Cmd := BitVec.ofNat 4 (w % 2 ^ nbits)

/-- What the decoder reads from a table word, the length field and the symbols all zero (log 12). -/
def decodeTableWord (nbits w : Nat) : Option Instr :=
  match decode Config.resetCapacity (tableCommand nbits w) 0 with
  | .ok i => some i
  | .error _ => none

end Sys2Proof
end

