-- ==== Sys2Proof/Machine/State.lean ====
section
/-! DEFINITION. The machine's state as plain data: the request and response ports, the transaction in progress, the host's
pending moves (10_state.md R10 to R18); and why the machine stops. -/

namespace Sys2Proof.Machine

/-- One move of the host on its side of the interface (10_state.md R17, 70_reset_and_hazards.md R155; log 6). -/
inductive HostMove where
  /-- The host leaves its ports alone; the block moves. -/
  | hold
  /-- The host puts these values on `req_cmd`, `req_len`, `req_sym`. -/
  | drive (r : Request)
  /-- The host raises `req_valid`. -/
  | raise
  /-- The host lowers `req_valid`. -/
  | lower
  /-- Reset is asserted. -/
  | reset
deriving DecidableEq, Repr

/-- "A transaction is in progress", with the copy of its request (10_state.md R17). `disturbed` is the model's own: the host
broke the duty of 70_reset_and_hazards.md R159 in this transaction, so its response is unspecified. -/
structure Txn where
  request : Request
  disturbed : Bool
deriving DecidableEq, Repr

/-- Why the machine stops with a fault. -/
inductive Fault where
  /-- Raised by `ENC`, `DEC`, `COR` in a state whose symbol array is shorter than the operand string: `req_sym[j]` is read only
  where it exists (20_memory.md R29). No request that stands on the ports raises it. Safe (log 10). -/
  | symbolOutsideArray
deriving DecidableEq, Repr

/-- Why the machine gives a step no meaning. -/
inductive Refusal where
  /-- Raised by an arm of `exec` whose instruction has no meaning yet. Safe. -/
  | notModelled (mnemonic : String)
  /-- Raised by the block's move in a state whose length field holds a number wider than the port. No request that stands on
  the ports raises it. Safe (log 20). -/
  | badLength
  /-- Raised by the host's `drive` of values that the ports cannot carry. Safe (log 9). -/
  | unpresentable
deriving DecidableEq, Repr

/-- The machine. The block keeps nothing between transactions (10_state.md R10): the fields are its ports, the transaction in
progress, the capacity it was built with, and (the model's own) the host's pending moves and the free values' counter. -/
structure State where
  /-- `NMAX` (00_scope.md R3), fixed: no step changes it (log 1). -/
  cap : Capacity
  /-- `req_valid` (10_state.md R15). -/
  reqValid : Bool
  /-- `req_cmd[3:0]` (10_state.md R15). -/
  reqCmd : Cmd
  /-- `req_len[LW-1:0]` (10_state.md R15). -/
  reqLen : Nat
  /-- `req_sym[0..NMAX-1]` (10_state.md R15), index 0 first. -/
  reqSym : List Sym
  /-- `rsp_valid` (10_state.md R16). -/
  rspValid : Bool
  /-- `rsp_st[1:0]` (10_state.md R16). -/
  rspSt : StCode
  /-- `rsp_len[LW-1:0]` (10_state.md R16). -/
  rspLen : Nat
  /-- `rsp_bit[0..NMAX-1]` (10_state.md R16), index 0 first. -/
  rspBit : List Bool
  /-- `rsp_idx[0..RMAX-1]` (10_state.md R16), rank 0 first. -/
  rspIdx : List Nat
  /-- The transaction in progress (10_state.md R17). -/
  txn : Option Txn
  /-- The model's own: the host's pending moves, next first; empty means that the host holds (log 6). -/
  schedule : List HostMove
  /-- The model's own: the next free value's number (log 19). -/
  freeCount : Nat
deriving DecidableEq, Repr

/-- The machine of a given capacity right after reset: idle, no transaction (10_state.md R18, 70_reset_and_hazards.md R155).
The other ports' values are named in log 2 and log 3 (DESIGN CHOICE). -/
def State.resetFor (cap : Capacity) : State where
  cap := cap
  reqValid := false
  reqCmd := 0#4
  reqLen := 0
  reqSym := cap.zeroSyms
  rspValid := false
  rspSt := 0#2
  rspLen := 0
  rspBit := cap.fitBits []
  rspIdx := cap.fitIdx []
  txn := none
  schedule := []
  freeCount := 0

/-- The machine right after reset. -/
def State.reset : State := State.resetFor Config.resetCapacity

end Sys2Proof.Machine
end

