-- ==== Sys2Proof/Machine/Operands.lean ====
section
/-! DEFINITION. Operand forms: the operand string of a request, its symbols as bits, and the orientation of a string. -/

namespace Sys2Proof.Machine

/-- The symbol on two wires `{x, b}`, `x = sym[1]`, `b = sym[0]` (20_memory.md R26). -/
def symOfWires (w : BitVec 2) : Sym := ⟨w.getLsbD 1, w.getLsbD 0⟩

/-- `isbin(y)`: the character is `'0'` or `'1'` (20_memory.md R26). -/
def isbin (y : Sym) : Bool := !y.x

/-- `bitof(y)`: the `b` wire, whatever the `x` wire says (20_memory.md R26, R43). -/
def bitof (y : Sym) : Bool := y.b

/-- The operand string `sym[0], ..., sym[len-1]` (30_encoding.md R49), where the array holds it (20_memory.md R29). -/
def State.operand? (s : State) (len : Nat) : Option (List Sym) :=
  if len ≤ s.reqSym.length then some (s.reqSym.take len) else none

/-- The view mapping between a string and its logical form (20_memory.md R32); it is its own inverse. -/
def orient (rev : Bool) (str : List Bool) : List Bool := if rev then str.reverse else str

/-- The bit at position `q` of a string in logical order (20_memory.md R27, R32). -/
def bitAt (str : List Bool) (q : Nat) : Bool := str.getD (q - 1) false

/-- Element `j` of the response bit string as the host reads it (10_state.md R16). -/
def State.rspBitAt (s : State) (j : Nat) : Bool := s.rspBit.getD j false

/-- Element `t` of the response index list as the host reads it (10_state.md R16). -/
def State.rspIdxAt (s : State) (t : Nat) : Nat := s.rspIdx.getD t 0

end Sys2Proof.Machine
end

