-- ==== Sys2Proof/Machine/Positions.lean ====
section
/-! DEFINITION. The position arithmetic of 40_position_arithmetic.md: popcount, parity positions, coverage, parity, and the
counts `r(k)`, `n(k)`, `c(m)`. Positions are 1-based, indices 0-based (20_memory.md R27). -/

namespace Sys2Proof.Machine

/-- The number of 1 bits among the lowest `fuel` bits of `p`. -/
def popcountLoop : Nat → Nat → Nat
  | 0, _ => 0
  | fuel + 1, p => if p = 0 then 0 else p % 2 + popcountLoop fuel (p / 2)

/-- `popcount(p)` (R60). A number has no more bits than its value. -/
def popcount (p : Nat) : Nat := popcountLoop p p

/-- `ispar(p)`: exactly one bit is set (R61). -/
def ispar (p : Nat) : Bool := popcount p == 1

/-- The positions `1, 2, ..., m` of a string of length `m`, ascending (R69). -/
def positions (m : Nat) : List Nat := (List.range m).map (· + 1)

/-- The non-parity positions `q_1 < q_2 < ...` of a string of length `m` (R66). -/
def dataPositions (m : Nat) : List Nat := (positions m).filter (fun q => !ispar q)

/-- `covers(i, q)`: bit `i` of `q` is set (R63). -/
def covers (i q : Nat) : Bool := (q >>> i) % 2 == 1

/-- `cover(i, m)`: the positions up to `m` that parity bit `i` covers (R63), ascending. -/
def cover (i m : Nat) : List Nat := (positions m).filter (covers i)

/-- `parity(B)`: the XOR of a collection of bits, 0 when it is empty (R65). -/
def parity (bits : List Bool) : Bool := bits.foldl xor false

/-- Tries `r`, `r + 1`, ... until `2^r >= k + r + 1`. -/
def parityBitsLoop : Nat → Nat → Nat → Nat
  | 0, _, r => r
  | fuel + 1, k, r => if k + r + 1 ≤ 2 ^ r then r else parityBitsLoop fuel k (r + 1)

/-- `r(k)`: the smallest `r` with `2^r >= k + r + 1` (R68). It is at most `k + 1`, which bounds the search. -/
def parityBits (k : Nat) : Nat := parityBitsLoop (k + 1) k 0

/-- `n(k) = k + r(k)`: the codeword length of `k` data bits (R71). -/
def codewordLen (k : Nat) : Nat := k + parityBits k

/-- `c(m)`: the number of parity positions of a string of length `m` (R69). -/
def parityCount (m : Nat) : Nat := if m = 0 then 0 else Nat.log2 m + 1

/-- The largest `k <= top` whose codeword has at most `nmax` bits. -/
def kmaxLoop (nmax : Nat) : Nat → Nat
  | 0 => 0
  | top + 1 => if codewordLen (top + 1) ≤ nmax then top + 1 else kmaxLoop nmax top

/-- `KMAX`: the largest data length of a block of capacity `nmax` (00_scope.md R3). -/
def kmax (nmax : Nat) : Nat := kmaxLoop nmax nmax

end Sys2Proof.Machine
end

