-- ==== Sys2Proof/Machine/Flags.lean ====
section
/-! DEFINITION. The block's one flag, the status of a response (10_state.md R13): its codes, and the checks that set it
(60_exceptions.md R135 to R137). -/

namespace Sys2Proof.Machine

/-- The three statuses (60_exceptions.md R135); code 3 is never produced. -/
inductive Status where
  | ok
  | invalidInput
  | capacity
deriving DecidableEq, Repr

/-- The code on `rsp_st` (60_exceptions.md R135). -/
def Status.code : Status → StCode
  | .ok => 0#2
  | .invalidInput => 1#2
  | .capacity => 2#2

/-- `CAPACITY` of `IDX.I`, `DEC`, `COR`: `len > NMAX` (60_exceptions.md R137). -/
def overCapacityIn (cap : Capacity) (len : Nat) : Bool := cap.exceeded len

/-- `CAPACITY` of `IDX.O`, `ENC`: `len > NMAX` or `len + r(len) > NMAX`, on the exact sum (60_exceptions.md R137). -/
def overCapacityOut (cap : Capacity) (len : Nat) : Bool := cap.exceeded len || cap.exceeded (codewordLen len)

/-- The Corrector's validation fails: the string is empty or holds a non-binary symbol (44_corrector.md R116,
60_exceptions.md R136). -/
def invalidInput (syms : List Sym) : Bool := syms.isEmpty || syms.any (fun y => !isbin y)

end Sys2Proof.Machine
end

