-- ==== Sys2Proof/Machine/Ops.lean ====
section
/-! DEFINITION. The shared operations over the ports: presenting a response, the error response, reading the operand string. -/

namespace Sys2Proof.Machine

/-- A response `(st, len, bits, idx)` (10_state.md R16), each payload without the zeros that follow it. -/
structure Response where
  st : Status
  len : Nat
  bits : List Bool
  idx : List Nat
deriving DecidableEq, Repr

/-- `return OK(v)` of a bit string. -/
def Response.okBits (v : List Bool) : Response := ⟨.ok, v.length, v, []⟩

/-- `return OK(v)` of an index list. -/
def Response.okIdx (v : List Nat) : Response := ⟨.ok, v.length, [], v⟩

/-- The error response (60_exceptions.md R140): the status, length 0, payload all 0. -/
def Response.error (st : Status) : Response := ⟨st, 0, [], []⟩

/-- The block puts a response on its ports and raises `rsp_valid` (10_state.md R16, R17 phase 3; 20_memory.md R30). An error
response is presented in the same way (60_exceptions.md R140). -/
def State.respond (s : State) (r : Response) : State :=
  { s with
    rspValid := true
    rspSt := r.st.code
    rspLen := s.cap.fitLen r.len
    rspBit := s.cap.fitBits r.bits
    rspIdx := s.cap.fitIdx r.idx }

/-- The response ports take unspecified values (10_state.md R18; log 4, log 5): free values, of the ports' widths. -/
def State.freeRsp (s : State) : State :=
  { s with
    rspSt := Config.freeStatus s.freeCount
    rspLen := s.cap.fitLen (Config.freeLen s.freeCount)
    rspBit := s.cap.fitBits (Config.freeBits s.freeCount)
    rspIdx := s.cap.fitIdx ((Config.freeIdx s.freeCount).map s.cap.fitLen)
    freeCount := s.freeCount + 1 }

/-- How many symbols an operation reads: none when it answers `CAPACITY`, which is decided on `len` alone
(60_exceptions.md R141). -/
def readCount (tooBig : Bool) (len : Nat) : Nat := if tooBig then 0 else len

/-- The operation answers with a response computed from the first `count` symbols of the request string. -/
def State.answer (s : State) (count : Nat) (f : List Sym → Response) : Host.Outcome State Fault Refusal :=
  match s.operand? count with
  | some syms => .next (s.respond (f syms))
  | none => .fault .symbolOutsideArray

end Sys2Proof.Machine
end

