-- ==== Sys2Proof/Machine/Indexer.lean ====
section
/-! DEFINITION. The `parity_position_indexer` (41_parity_position_indexer.md): `IDX.I` and `IDX.O`. -/

namespace Sys2Proof.Machine

/-- `ppi_in(m)` (R76): the parity positions among `1..m`, as indices, ascending. -/
def ppiIn (m : Nat) : List Nat := ((positions m).filter ispar).map (· - 1)

/-- The walk of R77 from position `p` with the current `limit`; `fuel` bounds the number of positions walked. -/
def ppiOutLoop : Nat → Nat → Nat → List Nat
  | 0, _, _ => []
  | fuel + 1, p, limit =>
    if limit < p then []
    else if ispar p then (p - 1) :: ppiOutLoop fuel (p + 1) (limit + 1)
    else ppiOutLoop fuel (p + 1) limit

/-- `ppi_out(k)` (R77): the walk starts at position 1 with `limit = k`. It ends by itself after `n(k) <= 2k + 1` positions. -/
def ppiOut (k : Nat) : List Nat := ppiOutLoop (2 * k + 2) 1 k

/-- The response of `IDX.I` (R76). -/
def idxIResponse (cap : Capacity) (len : Nat) : Response :=
  if overCapacityIn cap len then .error .capacity else .okIdx (ppiIn len)

/-- The response of `IDX.O` (R77). -/
def idxOResponse (cap : Capacity) (len : Nat) : Response :=
  if overCapacityOut cap len then .error .capacity else .okIdx (ppiOut len)

/-- `IDX.I len` (R76); the `rev` bit is ignored (30_encoding.md R50). -/
def execIdxI (_rev : Bool) (len : Nat) (s : State) : Host.Outcome State Fault Refusal :=
  s.answer 0 (fun _ => idxIResponse s.cap len)

/-- `IDX.O len` (R77); the `rev` bit is ignored (30_encoding.md R50). -/
def execIdxO (_rev : Bool) (len : Nat) (s : State) : Host.Outcome State Fault Refusal :=
  s.answer 0 (fun _ => idxOResponse s.cap len)

end Sys2Proof.Machine
end

