-- ==== Sys2Proof/Machine/Decoder.lean ====
section
/-! DEFINITION. The `hamming_ecc_decoder` unit (43_decoder.md): `DEC`. -/

namespace Sys2Proof.Machine

/-- Step 3 (R106): the bits at the indices that are not in `P`, in ascending order. -/
def strip (P : List Nat) (L : List Bool) : List Bool :=
  (L.zipIdx.filter (fun e => !P.contains e.2)).map Prod.fst

/-- `dec(C, rev)` (R105, R106). -/
def dec (C : List Bool) (rev : Bool) : List Bool := orient rev (strip (ppiIn C.length) (orient rev C))

/-- The response of `DEC` to the operand string `syms` (R105). -/
def decResponse (cap : Capacity) (rev : Bool) (len : Nat) (syms : List Sym) : Response :=
  if overCapacityIn cap len then .error .capacity else .okBits (dec (syms.map bitof) rev)

/-- `DEC` (R105); the `mode` bit is ignored (30_encoding.md R50). -/
def execDec (_mode rev : Bool) (len : Nat) (s : State) : Host.Outcome State Fault Refusal :=
  s.answer (readCount (overCapacityIn s.cap len) len) (decResponse s.cap rev len)

end Sys2Proof.Machine
end

