-- ==== Sys2Proof/Machine/Corrector.lean ====
section
/-! DEFINITION. The `hamming_ecc_corrector` unit (44_corrector.md): `COR`. -/

namespace Sys2Proof.Machine

/-- `s_i` (R119): the parity of all positions that parity bit `i` covers, its own included (90_conflicts.md C5). -/
def checkBit (W : List Bool) (i : Nat) : Bool := parity ((cover i W.length).map (bitAt W))

/-- `E` (R119, R120): the sum of the parity positions whose checks failed, over the parity bits of R118. -/
def syndrome (W : List Bool) : Nat :=
  (List.range (ppiIn W.length).length).foldl (fun E i => if checkBit W i then E + 2 ^ i else E) 0

/-- The flip of step 5 (R121): at position `E`, when it lies in the string. -/
def flipAt (W : List Bool) (E : Nat) : List Bool :=
  if 0 < E ∧ E ≤ W.length then W.set (E - 1) (!bitAt W E) else W

/-- `cor(C, rev)` (R115): the Decoder applied to the string with at most one bit flipped (R122). -/
def cor (C : List Bool) (rev : Bool) : List Bool :=
  let W := orient rev C
  dec (orient rev (flipAt W (syndrome W))) rev

/-- The response of `COR` to the operand string `syms` (R115): the capacity check, then the validation, then the correction
(60_exceptions.md R141). -/
def corResponse (cap : Capacity) (rev : Bool) (len : Nat) (syms : List Sym) : Response :=
  if overCapacityIn cap len then .error .capacity
  else if invalidInput syms then .error .invalidInput
  else .okBits (cor (syms.map bitof) rev)

/-- `COR` (R115); the `mode` bit is ignored (30_encoding.md R50). -/
def execCor (_mode rev : Bool) (len : Nat) (s : State) : Host.Outcome State Fault Refusal :=
  s.answer (readCount (overCapacityIn s.cap len) len) (corResponse s.cap rev len)

end Sys2Proof.Machine
end

