-- ==== Sys2Proof/Machine/Encoder.lean ====
section
/-! DEFINITION. The `hamming_ecc_encoder` unit (42_encoder.md): `ENC`. -/

namespace Sys2Proof.Machine

/-- The placeholder at a parity position of the skeleton (R92). It is never read (DESIGN CHOICE 0, log 15). -/
def placeholder : Bool := false

/-- The skeleton from index `j` on, `count` positions long: a placeholder at each index of `P`, the next data bit elsewhere
(R92). The data never runs out when `count` is its length plus the number of placeholders. -/
def placeFrom (P : List Nat) : Nat → Nat → List Bool → List Bool
  | 0, _, _ => []
  | count + 1, j, data =>
    if P.contains j then placeholder :: placeFrom P count (j + 1) data
    else data.headD false :: placeFrom P count (j + 1) data.tail

/-- `place(d, rev, P, n)` (R92): the data is consumed forward, or from its last character when `rev`. -/
def place (d : List Bool) (rev : Bool) (P : List Nat) (n : Nat) : List Bool := placeFrom P n 0 (orient rev d)

/-- `pbit(W, i, n)` (R93): the parity of the positions that parity bit `i` covers, its own left out. -/
def pbit (W : List Bool) (i n : Nat) : Bool :=
  parity (((cover i n).filter (fun q => q != 2 ^ i)).map (bitAt W))

/-- Steps 3 and 4 (R93): every parity value is written at its position. -/
def writeParity (W : List Bool) (r n : Nat) : List Bool :=
  (List.range r).foldl (fun V i => V.set (2 ^ i - 1) (pbit V i n)) W

/-- `enc(d, rev)` (R90). -/
def enc (d : List Bool) (rev : Bool) : List Bool :=
  let k := d.length
  let P := ppiOut k
  let r := P.length
  let n := k + r
  orient rev (writeParity (place d rev P n) r n)

/-- The response of `ENC` to the operand string `syms` (R90). -/
def encResponse (cap : Capacity) (rev : Bool) (len : Nat) (syms : List Sym) : Response :=
  if overCapacityOut cap len then .error .capacity else .okBits (enc (syms.map bitof) rev)

/-- `ENC` (R90); the `mode` bit is ignored (30_encoding.md R50). -/
def execEnc (_mode rev : Bool) (len : Nat) (s : State) : Host.Outcome State Fault Refusal :=
  s.answer (readCount (overCapacityOut s.cap len) len) (encResponse s.cap rev len)

end Sys2Proof.Machine
end

