-- ==== Sys2Proof/Machine/Dispatch.lean ====
section
/-! DEFINITION. One arm per operation. -/

namespace Sys2Proof.Machine

/-- The operation `i` executed on the request string that stands on the ports (30_encoding.md R46). -/
def exec (i : Instr) (s : State) : Host.Outcome State Fault Refusal :=
  match i with
  | .idxO rev len => Sys2Proof.Machine.execIdxO rev len s
  | .idxI rev len => Sys2Proof.Machine.execIdxI rev len s
  | .enc mode rev len => Sys2Proof.Machine.execEnc mode rev len s
  | .dec mode rev len => Sys2Proof.Machine.execDec mode rev len s
  | .cor mode rev len => Sys2Proof.Machine.execCor mode rev len s

end Sys2Proof.Machine
end

