-- ==== Sys2Proof/Machine/Handshake.lean ====
section
/-! DEFINITION. The four-phase handshake of 10_state.md R17: the host's moves, reset, and the block's move. -/

namespace Sys2Proof.Machine

/-- The values on the request ports. -/
def State.portRequest (s : State) : Request := ⟨s.reqCmd, s.reqLen, s.reqSym⟩

/-- A field that the block reads differs between two requests: the command word, the length, or a symbol below the length
(70_reset_and_hazards.md R159). -/
def readsDiffer (old new : Request) : Bool :=
  old.cmd != new.cmd || old.len != new.len || old.sym.take old.len != new.sym.take old.len

/-- The transaction in progress, marked disturbed when `bad` and its response is not yet presented (70_reset_and_hazards.md
R159: the duty runs until `rsp_valid` rises). -/
def State.disturbIf (s : State) (bad : Txn → Bool) : Option Txn :=
  s.txn.map (fun t => { t with disturbed := t.disturbed || (!s.rspValid && bad t) })

/-- The host drives the request fields (10_state.md R17 phase 2). -/
def hostDrive (r : Request) (s : State) : Host.Outcome State Fault Refusal :=
  if r.presentable s.cap then
    .next { s with
      reqCmd := r.cmd
      reqLen := r.len
      reqSym := r.sym
      txn := s.disturbIf (fun t => readsDiffer t.request r) }
  else .refused .unpresentable

/-- The host raises `req_valid`. With no transaction in progress one begins, with the copy of its request (10_state.md R17).
While one is in progress the wire rises and nothing else happens: no second request is presented before the first has completed
its four phases (70_reset_and_hazards.md R162; log 8), and a disturbed transaction stays so (R159). -/
def hostRaise (s : State) : State :=
  { s with reqValid := true, txn := some (s.txn.getD ⟨s.portRequest, false⟩) }

/-- The host lowers `req_valid` (10_state.md R17 phase 4); before the response it must not (70_reset_and_hazards.md R159). -/
def hostLower (s : State) : State := { s with reqValid := false, txn := s.disturbIf (fun _ => true) }

/-- The interface becomes idle: `rsp_valid` falls, the transaction and its copy are discarded (10_state.md R17 phase 4), and
the response ports are unspecified (10_state.md R18; log 5). -/
def State.goIdle (s : State) : State := { s.freeRsp with rspValid := false, txn := none }

/-- Reset (70_reset_and_hazards.md R155): the interface is idle and a transaction in progress is lost. Idle means
`req_valid = 0` too (10_state.md R17; log 7). -/
def hostReset (s : State) : State := { s.goIdle with reqValid := false }

/-- The response of a transaction whose request the host did not hold still is unspecified (70_reset_and_hazards.md R159;
log 4), but it is presented. -/
def State.respondFree (s : State) : State := { s.freeRsp with rspValid := true }

/-- The block executes the request on its ports. -/
def execPorts (s : State) : Host.Outcome State Fault Refusal :=
  match decode s.cap s.reqCmd s.reqLen with
  | .ok i => exec i s
  | .error .lenTooWide => .refused .badLength

/-- The block's move (10_state.md R17): it answers a request it has not answered (phase 3), takes its response back once the
host has lowered `req_valid` (phase 4), and otherwise waits. -/
def blockMove (s : State) : Host.Outcome State Fault Refusal :=
  match s.txn with
  | none => .next s
  | some t =>
    if s.rspValid then (if s.reqValid then .next s else .next s.goIdle)
    else if t.disturbed then .next s.respondFree
    else execPorts s

/-- One move of the host, or of the block while the host holds. -/
def hostMove (m : HostMove) (s : State) : Host.Outcome State Fault Refusal :=
  match m with
  | .hold => blockMove s
  | .drive r => hostDrive r s
  | .raise => .next (hostRaise s)
  | .lower => .next (hostLower s)
  | .reset => .next (hostReset s)

/-- The state in which the block is about to answer the request `(cmd, 0, all symbols zero)`: the host has driven it, raised
`req_valid` and holds (log 13). -/
def State.withRequest (s : State) (cmd : Cmd) : State :=
  { s with
    reqValid := true
    reqCmd := cmd
    reqLen := 0
    reqSym := s.cap.zeroSyms
    rspValid := false
    txn := some ⟨⟨cmd, 0, s.cap.zeroSyms⟩, false⟩
    schedule := [] }

end Sys2Proof.Machine
end

