-- ==== Sys2Proof/Machine/Step.lean ====
section
/-! DEFINITION. One step: the host's next move, or the block's move when no move of the host is pending (log 6). -/

namespace Sys2Proof.Machine

/-- One step of the machine. -/
def step (s : State) : Host.Outcome State Fault Refusal :=
  match s.schedule with
  | m :: rest => hostMove m { s with schedule := rest }
  | [] => blockMove s

/-- `s` with the table word `w` on the request ports as a request that the block answers in the very next step (log 13). -/
def State.withFetchWord (s : State) (nbits w : Nat) : State := s.withRequest (tableCommand nbits w)

end Sys2Proof.Machine
end

