-- ==== Sys2Proof/Safety.lean ====
section
/-! DEFINITION. The terms of the claims: what a response port shows, what an operation leaves alone, the block as a pure
function of the request (00_scope.md R4), and the invariant of the interface. -/

namespace Sys2Proof.Machine

/-- The response of an operation to an operand string: `exec : Request -> Response` of 00_scope.md R4, per operation. -/
def responseOf (cap : Capacity) (i : Instr) (syms : List Sym) : Response :=
  match i with
  | .idxO _ len => idxOResponse cap len
  | .idxI _ len => idxIResponse cap len
  | .enc _ rev len => encResponse cap rev len syms
  | .dec _ rev len => decResponse cap rev len syms
  | .cor _ rev len => corResponse cap rev len syms

/-- The block as a function of a request (00_scope.md R4); none for values that are on no port. -/
def requestResponse (cap : Capacity) (r : Request) : Option Response :=
  match decode cap r.cmd r.len with
  | .ok i => some (responseOf cap i (r.sym.take r.len))
  | .error _ => none

/-- The response ports show exactly this response: `rsp_valid` is high, status and length are its own, the payload stands at
the head of its array, and every other element of both arrays is 0 (10_state.md R16). -/
def State.shows (s : State) (r : Response) : Prop :=
  s.rspValid = true ∧ s.rspSt = r.st.code ∧ s.rspLen = r.len ∧
  (∀ j, s.rspBitAt j = r.bits.getD j false) ∧ (∀ j, s.rspIdxAt j = r.idx.getD j 0)

/-- `t` differs from `s` at most in the response ports. -/
def State.sameButResponse (s t : State) : Prop :=
  t.cap = s.cap ∧ t.reqValid = s.reqValid ∧ t.reqCmd = s.reqCmd ∧ t.reqLen = s.reqLen ∧ t.reqSym = s.reqSym ∧
  t.txn = s.txn ∧ t.schedule = s.schedule ∧ t.freeCount = s.freeCount

/-- The operand string of a request of `len` symbols is on the ports (20_memory.md R29). -/
def State.holdsOperand (s : State) (len : Nat) : Prop := len ≤ s.reqSym.length

/-- The request string begins with this bit string, each character a binary symbol (20_memory.md R25, R26). -/
def State.presents (s : State) (d : List Bool) : Prop := s.reqSym.take d.length = d.map Sym.ofBit

/-- A bit string with the character at index `j` flipped. -/
def flipIndex (c : List Bool) (j : Nat) : List Bool := c.set j (!c.getD j false)

/-- A string of `n` elements fits the capacity: `n <= NMAX` (00_scope.md R3); always so when `NMAX = ∞`. -/
def hasRoom (cap : Capacity) (n : Nat) : Prop := ∀ nmax, cap = .bounded nmax → n ≤ nmax

/-- Two states present the same response. -/
def State.sameResponse (s t : State) : Prop :=
  t.rspValid = s.rspValid ∧ t.rspSt = s.rspSt ∧ t.rspLen = s.rspLen ∧ t.rspBit = s.rspBit ∧ t.rspIdx = s.rspIdx

/-- The block is about to answer the request on its ports: a transaction is in progress, undisturbed and not yet answered. -/
def State.ready (s : State) : Prop := ∃ t, s.txn = some t ∧ t.disturbed = false ∧ s.rspValid = false

/-- `n` steps, ending at the first stop. -/
def runSteps : Nat → State → Host.Outcome State Fault Refusal
  | 0, s => .next s
  | n + 1, s =>
    match step s with
    | .next t => runSteps n t
    | .fault f => .fault f
    | .refused r => .refused r

/-- The response ports hold values of their widths (10_state.md R16). -/
def State.rspFits (s : State) : Prop :=
  s.cap.lenFits s.rspLen = true ∧
  (∀ nmax, s.cap = .bounded nmax → s.rspBit.length = nmax) ∧
  (∀ slots, s.cap.rmax = some slots → s.rspIdx.length = slots) ∧
  (∀ v ∈ s.rspIdx, s.cap.lenFits v = true)

/-- The interface is idle (10_state.md R17 phase 1). -/
def State.idle (s : State) : Prop := s.reqValid = false ∧ s.rspValid = false ∧ s.txn = none

/-- The invariant of the interface: what the ports and the transaction in progress have to do with each other. -/
structure State.Inv (s : State) : Prop where
  /-- The capacity is one the spec allows (00_scope.md R3). -/
  capLegal : s.cap.legal = true
  /-- The request ports hold values of their widths (10_state.md R15). -/
  reqFits : s.portRequest.presentable s.cap = true
  /-- The response ports hold values of their widths (10_state.md R16). -/
  rspFits : s.rspFits
  /-- Without a transaction in progress the interface is idle (10_state.md R17). -/
  noTxnIdle : s.txn = none → s.idle
  /-- The copy of a transaction's request is a request (10_state.md R17). -/
  copyFits : ∀ t, s.txn = some t → t.request.presentable s.cap = true
  /-- Until it is answered, an undisturbed request is still on the ports (10_state.md R17, 70_reset_and_hazards.md R159). -/
  heldStill : ∀ t, s.txn = some t → t.disturbed = false → s.rspValid = false →
    s.reqValid = true ∧ readsDiffer t.request s.portRequest = false
  /-- While `rsp_valid` is high, the ports show the response to the request of an undisturbed transaction, and nothing else
  (10_state.md R17 phase 3). -/
  answered : ∀ t, s.txn = some t → t.disturbed = false → s.rspValid = true →
    ∃ r, requestResponse s.cap t.request = some r ∧ s.shows r

end Sys2Proof.Machine
end

