-- ==== Sys2Proof/Certificates/Slice0/Obligations.lean ====
section
/-! DEFINITION. The statements for the provers, from the spec's numbered rules. Every one quantifies over the capacity
(00_scope.md R3), bounded or not; none rests on the capacity of `State.reset`. -/

open Sys2Proof Sys2Proof.Machine

/-! ### Encoding -/

/-- 30_encoding.md sections 1 to 3: for every operation whose length operand its port carries, decoding the encoding gives it
back, every command bit and the length included; and whatever the decoder accepts is the encoding of its answer. -/
def Obligations.DecodeInvertsEncode : Prop :=
  (∀ (cap : Capacity) (i : Instr), i.wf cap = true → decode cap (encode i).1 (encode i).2 = .ok i) ∧
  (∀ (cap : Capacity) (cmd : Cmd) (len : Nat) (i : Instr),
    decode cap cmd len = .ok i → i.wf cap = true ∧ encode i = (cmd, len))

/-- 95_test_vectors.md section 2.7: command words written out bit by bit decode to their operations. -/
def Obligations.CommandWordsDecode : Prop :=
  ∀ len, decodeCmd 0b0000#4 len = .idxO false len ∧ decodeCmd 0b0100#4 len = .idxO true len ∧
    decodeCmd 0b1000#4 len = .idxI false len ∧ decodeCmd 0b1100#4 len = .idxI true len ∧
    decodeCmd 0b0001#4 len = .enc false false len ∧ decodeCmd 0b0101#4 len = .enc false true len ∧
    decodeCmd 0b1001#4 len = .enc true false len ∧ decodeCmd 0b0010#4 len = .dec false false len ∧
    decodeCmd 0b0110#4 len = .dec false true len ∧ decodeCmd 0b1110#4 len = .dec true true len ∧
    decodeCmd 0b0011#4 len = .cor false false len ∧ decodeCmd 0b0111#4 len = .cor false true len ∧
    decodeCmd 0b1111#4 len = .cor true true len

/-- 30_encoding.md section 3: every one of the sixteen command words selects exactly one row of the opcode map, the row of the
operation that it decodes to. -/
def Obligations.EveryCommandWordSelectsOneRow : Prop :=
  ∀ (cmd : Cmd) (len : Nat),
    (opcodeMap.filter (fun row => row.selects cmd)).map TableRow.mnemonic = [(decodeCmd cmd len).mnemonic]

/-- 30_encoding.md R50: `IDX` ignores `rev` and the whole of `sym`; `ENC`, `DEC` and `COR` ignore `mode`; every operation
ignores `sym[j]` for `j >= len`. "Ignores" means that the response is the same for every value. -/
def Obligations.IgnoredFieldsDoNotMatter : Prop :=
  (∀ (rev rev' : Bool) (len : Nat) (s s' t t' : State), s'.cap = s.cap →
    (exec (.idxO rev len) s = .next t → exec (.idxO rev' len) s' = .next t' → t.sameResponse t') ∧
    (exec (.idxI rev len) s = .next t → exec (.idxI rev' len) s' = .next t' → t.sameResponse t')) ∧
  (∀ (mode mode' rev : Bool) (len : Nat) (s s' t t' : State), s'.cap = s.cap →
    s'.reqSym.take len = s.reqSym.take len →
    (exec (.enc mode rev len) s = .next t → exec (.enc mode' rev len) s' = .next t' → t.sameResponse t') ∧
    (exec (.dec mode rev len) s = .next t → exec (.dec mode' rev len) s' = .next t' → t.sameResponse t') ∧
    (exec (.cor mode rev len) s = .next t → exec (.cor mode' rev len) s' = .next t' → t.sameResponse t'))

/-! ### Position arithmetic -/

/-- 40_position_arithmetic.md R60, R61: `popcount` counts the 1 bits, and the parity positions are the powers of two. -/
def Obligations.ParityPositionsArePowersOfTwo : Prop :=
  (∀ p, popcount p = ((List.range p).filter (fun i => p.testBit i)).length) ∧
  (∀ p, 1 ≤ p → (ispar p = true ↔ popcount p = 1)) ∧
  (∀ p, 1 ≤ p → (ispar p = true ↔ ∃ i, p = 2 ^ i))

/-- 40_position_arithmetic.md R63, R64: every position is covered and a parity position covers itself; and the consequences (a)
to (c) that the spec marks as its own inference ("Further [derived: from rule R63]"). -/
def Obligations.CoverageProperties : Prop :=
  (∀ q, 1 ≤ q → ∃ i, covers i q = true) ∧
  (∀ i, covers i (2 ^ i) = true) ∧
  (∀ i j, covers i (2 ^ j) = true → i = j) ∧
  (∀ i m q, q ∈ cover i m → q ≠ 2 ^ i → ispar q = false) ∧
  (∀ (W V : List Bool) (i n : Nat), (∀ q, 1 ≤ q → q ≤ n → ispar q = false → bitAt W q = bitAt V q) →
    pbit W i n = pbit V i n) ∧
  (∀ q, q = (((List.range q).filter (fun i => covers i q)).map (fun i => 2 ^ i)).sum) ∧
  (∀ i m, 2 ^ i ≤ m → 2 ^ i ∈ cover i m)

/-- 40_position_arithmetic.md R66, R69 (both marked as the spec's own inference): the parity positions of a string of `m`
positions are `2^i` for `i < c(m)`; the others, `m - c(m)` of them, are the data positions, in ascending order. -/
def Obligations.ParityAndDataPositionsOfLength : Prop :=
  ∀ m, (positions m).filter ispar = (List.range (parityCount m)).map (fun i => 2 ^ i) ∧
    (∀ i, 2 ^ i ≤ m ↔ i < parityCount m) ∧
    (dataPositions m).length = m - parityCount m ∧
    (dataPositions m).Pairwise (· < ·) ∧
    (∀ q, q ∈ dataPositions m ↔ 1 ≤ q ∧ q ≤ m ∧ ispar q = false)

/-- 40_position_arithmetic.md R68: `r(k)` is the smallest `r` with `2^r >= k + r + 1`; minimality for `k >= 1`; the table of data
lengths up to 247. -/
def Obligations.ParityBitsIsSmallest : Prop :=
  (∀ k, k + parityBits k + 1 ≤ 2 ^ parityBits k ∧ ∀ r, k + r + 1 ≤ 2 ^ r → parityBits k ≤ r) ∧
  (∀ k, 1 ≤ k → 2 ^ (parityBits k - 1) < k + parityBits k) ∧
  parityBits 0 = 0 ∧ parityBits 1 = 2 ∧
  (∀ k, 2 ≤ k → k ≤ 4 → parityBits k = 3) ∧ (∀ k, 5 ≤ k → k ≤ 11 → parityBits k = 4) ∧
  (∀ k, 12 ≤ k → k ≤ 26 → parityBits k = 5) ∧ (∀ k, 27 ≤ k → k ≤ 57 → parityBits k = 6) ∧
  (∀ k, 58 ≤ k → k ≤ 120 → parityBits k = 7) ∧ (∀ k, 121 ≤ k → k ≤ 247 → parityBits k = 8)

/-- 40_position_arithmetic.md R68, the part marked as the spec's own inference ("In general, for r >= 2 ..."): the range of data
lengths of each `r`, and no data length has exactly one parity bit. -/
def Obligations.DataLengthsOfEachParityCount : Prop :=
  (∀ k r, 2 ≤ r → (parityBits k = r ↔ 2 ^ (r - 1) + 1 ≤ k + r ∧ k + r + 1 ≤ 2 ^ r)) ∧ (∀ k, parityBits k ≠ 1)

/-- 40_position_arithmetic.md R71, with (a) to (d), which the spec marks as its own inference: codeword lengths grow strictly,
have `r(k)` parity positions, are exactly 0 and the numbers from 3 on that are no power of two, and end in a data position. -/
def Obligations.CodewordLengths : Prop :=
  (∀ k, codewordLen k = k + parityBits k) ∧
  (∀ j k, j < k → codewordLen j < codewordLen k) ∧
  (∀ k, parityCount (codewordLen k) = parityBits k) ∧
  (∀ m, (∃ k, codewordLen k = m) ↔ m = 0 ∨ (3 ≤ m ∧ ∀ i, m ≠ 2 ^ i)) ∧
  (∀ k, 1 ≤ k → ispar (codewordLen k) = false)

/-- 41_parity_position_indexer.md R79: for a data length `k` the output-sizing walk finds exactly `r` parity positions, where `r`
is the smallest integer with `2^r >= k + r + 1`; `2^(r-1) < k + r` for `k >= 1`. -/
def Obligations.IndexerFindsSmallestParityCount : Prop :=
  ∀ k, k + (ppiOut k).length + 1 ≤ 2 ^ (ppiOut k).length ∧
    (∀ r, k + r + 1 ≤ 2 ^ r → (ppiOut k).length ≤ r) ∧
    (1 ≤ k → 2 ^ ((ppiOut k).length - 1) < k + (ppiOut k).length)

/-- 41_parity_position_indexer.md R80, the equation marked as the spec's own inference: the Decoder's and Corrector's indexing of
a codeword finds the parity indices that the Encoder's indexing placed. -/
def Obligations.IndexersAgreeOnCodewords : Prop :=
  ∀ k, ppiIn (codewordLen k) = ppiOut k

/-! ### The indexer's operations -/

/-- 41_parity_position_indexer.md R76: the command words `1 x 00` are `IDX.I`; within the capacity it answers `OK` with the `c(m)`
indices `2^t - 1`, the rest of both payloads 0; with `m > NMAX` it answers `CAPACITY`; it changes nothing but the response
ports. -/
def Obligations.IdxInAnswers : Prop :=
  (∀ (x : Bool) (len : Nat), decodeCmd (commandWord true x 0b00#2) len = .idxI x len) ∧
  ∀ (rev : Bool) (m : Nat) (s : State),
    (hasRoom s.cap m →
      ∃ t, exec (.idxI rev m) s = .next t ∧ t.rspValid = true ∧ t.rspSt = 0#2 ∧ t.rspLen = parityCount m ∧
        (∀ j, t.rspIdxAt j = if j < parityCount m then 2 ^ j - 1 else 0) ∧ (∀ j, t.rspBitAt j = false) ∧
        s.sameButResponse t) ∧
    (¬ hasRoom s.cap m →
      ∃ t, exec (.idxI rev m) s = .next t ∧ t.shows ⟨.capacity, 0, [], []⟩ ∧ s.sameButResponse t)

/-- 41_parity_position_indexer.md R77: the command words `0 x 00` are `IDX.O`; when the codeword fits the capacity it answers `OK`
with the `r(k)` indices `2^t - 1`, the rest of both payloads 0; with `k + r(k) > NMAX` it answers `CAPACITY`; it changes nothing
but the response ports. -/
def Obligations.IdxOutAnswers : Prop :=
  (∀ (x : Bool) (len : Nat), decodeCmd (commandWord false x 0b00#2) len = .idxO x len) ∧
  ∀ (rev : Bool) (k : Nat) (s : State),
    (hasRoom s.cap (k + parityBits k) →
      ∃ t, exec (.idxO rev k) s = .next t ∧ t.rspValid = true ∧ t.rspSt = 0#2 ∧ t.rspLen = parityBits k ∧
        (∀ j, t.rspIdxAt j = if j < parityBits k then 2 ^ j - 1 else 0) ∧ (∀ j, t.rspBitAt j = false) ∧
        s.sameButResponse t) ∧
    (¬ hasRoom s.cap (k + parityBits k) →
      ∃ t, exec (.idxO rev k) s = .next t ∧ t.shows ⟨.capacity, 0, [], []⟩ ∧ s.sameButResponse t)

/-! ### The encoder -/

/-- 42_encoder.md R90: `ENC` of an operand string whose codeword fits the capacity answers `OK` with `enc(d, rev)` of its `b`
wires, and changes nothing but the response ports. `EncodedCodeword` says what `enc` is. -/
def Obligations.EncAnswers : Prop :=
  ∀ (mode rev : Bool) (k : Nat) (s : State), hasRoom s.cap (codewordLen k) → s.holdsOperand k →
    ∃ t, exec (.enc mode rev k) s = .next t ∧
      t.shows ⟨.ok, codewordLen k, enc ((s.reqSym.take k).map bitof) rev, []⟩ ∧ s.sameButResponse t

/-- 42_encoder.md R92, R93, R94, R97: the codeword has `n(k)` bits; in its logical form the data position `q_(t+1)` holds
`d[t]`, or `d[k-1-t]` when reversed, and the parity position `2^i` holds the parity of the other positions it covers. -/
def Obligations.EncodedCodeword : Prop :=
  ∀ (d : List Bool) (rev : Bool),
    (enc d rev).length = codewordLen d.length ∧
    (∀ t, t < d.length →
      bitAt (orient rev (enc d rev)) ((dataPositions (codewordLen d.length)).getD t 0) =
        d.getD (if rev then d.length - 1 - t else t) false) ∧
    (∀ i, i < parityBits d.length →
      bitAt (orient rev (enc d rev)) (2 ^ i) =
        parity (((cover i (codewordLen d.length)).filter (fun q => q != 2 ^ i)).map (bitAt (orient rev (enc d rev)))))

/-- 42_encoder.md R96 (marked as the spec's own inference): every check of a produced codeword is even; equivalently the XOR of
the positions that hold a 1 is 0. -/
def Obligations.ProducedChecksAreEven : Prop :=
  ∀ (d : List Bool) (rev : Bool),
    (∀ i, i < parityBits d.length →
      parity ((cover i (codewordLen d.length)).map (bitAt (orient rev (enc d rev)))) = false) ∧
    ((positions (codewordLen d.length)).filter (bitAt (orient rev (enc d rev)))).foldl Nat.xor 0 = 0

/-- 42_encoder.md R90, corner cases (b) to (d): one data bit gives it three times, all-zero data the all-zero codeword, and the
reversed convention is the other one applied to the reversed data. -/
def Obligations.EncoderCornerCases : Prop :=
  (∀ (b rev : Bool), enc [b] rev = [b, b, b]) ∧
  (∀ (k : Nat) (rev : Bool), enc (List.replicate k false) rev = List.replicate (codewordLen k) false) ∧
  (∀ d : List Bool, enc d true = (enc d.reverse false).reverse)

/-- 20_memory.md R43: `ENC` and `DEC` do not look at the `x` wire of a symbol: their responses depend on the `b` wires alone,
and they never answer `INVALID_INPUT`. -/
def Obligations.EncAndDecReadTheBWireOnly : Prop :=
  ∀ (mode rev : Bool) (len : Nat) (s s' t t' : State), s'.cap = s.cap →
    (s'.reqSym.take len).map Sym.b = (s.reqSym.take len).map Sym.b →
    (exec (.enc mode rev len) s = .next t → exec (.enc mode rev len) s' = .next t' →
      t.sameResponse t' ∧ t.rspSt ≠ 1#2) ∧
    (exec (.dec mode rev len) s = .next t → exec (.dec mode rev len) s' = .next t' →
      t.sameResponse t' ∧ t.rspSt ≠ 1#2)

/-! ### The decoder -/

/-- 43_decoder.md R105: `DEC` of an operand string within the capacity answers `OK` with `dec(C, rev)` of its `b` wires, of
length `m - c(m)`, and changes nothing but the response ports. `DecoderClosedForm` says what `dec` is. -/
def Obligations.DecAnswers : Prop :=
  ∀ (mode rev : Bool) (m : Nat) (s : State), hasRoom s.cap m → s.holdsOperand m →
    ∃ t, exec (.dec mode rev m) s = .next t ∧
      t.shows ⟨.ok, m - parityCount m, dec ((s.reqSym.take m).map bitof) rev, []⟩ ∧ s.sameButResponse t

/-- 43_decoder.md R106, the closed form marked as the spec's own inference: the decoded string keeps the bits at the non-parity
positions `q_1 < q_2 < ...`, counted from the left end, or from the right end with the result turned round when reversed. -/
def Obligations.DecoderClosedForm : Prop :=
  ∀ (C : List Bool) (rev : Bool),
    (dec C rev).length = C.length - parityCount C.length ∧
    (∀ t, t < C.length - parityCount C.length →
      (dec C rev).getD (if rev then C.length - parityCount C.length - 1 - t else t) false =
        C.getD (if rev then C.length - (dataPositions C.length).getD t 0
          else (dataPositions C.length).getD t 0 - 1) false)

/-- 43_decoder.md R107: the Decoder is the left inverse of the Encoder, and the values of the parity bits do not matter. -/
def Obligations.DecoderIsLeftInverse : Prop :=
  (∀ (d : List Bool) (rev : Bool), dec (enc d rev) rev = d) ∧
  (∀ (C D : List Bool) (rev : Bool), C.length = D.length →
    (∀ q, q ∈ dataPositions C.length → bitAt (orient rev C) q = bitAt (orient rev D) q) → dec C rev = dec D rev)

/-- 42_encoder.md R95, between two transactions: whatever bit string `ENC` answers `OK` with, `DEC` with the same `rev` answers
with the data. -/
def Obligations.EncodeThenDecodeReturnsData : Prop :=
  ∀ (mode mode' rev : Bool) (d : List Bool) (s : State),
    hasRoom s.cap (codewordLen d.length) → s.presents d →
    ∃ t c, exec (.enc mode rev d.length) s = .next t ∧ t.shows (.okBits c) ∧
      ∀ s' : State, s'.cap = s.cap → s'.presents c →
        ∃ t', exec (.dec mode' rev c.length) s' = .next t' ∧ t'.shows (.okBits d)

/-! ### The corrector -/

/-- 44_corrector.md R115: `COR` of a non-empty binary string within the capacity answers `OK` with `cor(C, rev)`, of length
`m - c(m)`, and changes nothing but the response ports. `CorrectorFlipsAtSyndrome` says what `cor` is. -/
def Obligations.CorAnswers : Prop :=
  ∀ (mode rev : Bool) (C : List Bool) (s : State), C ≠ [] → hasRoom s.cap C.length → s.presents C →
    ∃ t, exec (.cor mode rev C.length) s = .next t ∧
      t.shows ⟨.ok, C.length - parityCount C.length, cor C rev, []⟩ ∧ s.sameButResponse t

/-- 44_corrector.md R119, with the closed form that the spec marks as its own inference: bit `i` of the syndrome is `s_i`, the
parity of all positions that parity bit `i` covers, its own included; the syndrome is the XOR of the positions that hold a 1. -/
def Obligations.SyndromeIsXorOfOnePositions : Prop :=
  ∀ W : List Bool,
    (∀ i, i < parityCount W.length → (syndrome W).testBit i = parity ((cover i W.length).map (bitAt W))) ∧
    syndrome W = ((positions W.length).filter (bitAt W)).foldl Nat.xor 0

/-- 44_corrector.md R120: the syndrome is 0 exactly when no parity check failed, and is at most `2^c(m) - 1`. -/
def Obligations.SyndromeRange : Prop :=
  ∀ W : List Bool, syndrome W ≤ 2 ^ parityCount W.length - 1 ∧
    (syndrome W = 0 ↔ ∀ i, i < parityCount W.length → parity ((cover i W.length).map (bitAt W)) = false)

/-- 44_corrector.md R121, R122: the Corrector decodes the request string with the bit at position `E` flipped (index `E - 1`, or
`m - E` when reversed, R120) when `0 < E <= m`, and the string as it is otherwise. -/
def Obligations.CorrectorFlipsAtSyndrome : Prop :=
  ∀ (C : List Bool) (rev : Bool),
    (0 < syndrome (orient rev C) → syndrome (orient rev C) ≤ C.length →
      cor C rev = dec (flipIndex C
        (if rev then C.length - syndrome (orient rev C) else syndrome (orient rev C) - 1)) rev) ∧
    (syndrome (orient rev C) = 0 → cor C rev = dec C rev) ∧
    (C.length < syndrome (orient rev C) → cor C rev = dec C rev)

/-- 44_corrector.md R127: `COR` of a bit string of any length from 1 to `NMAX` answers `OK`, with a result of the length of the
result of `DEC` on the same string. -/
def Obligations.CorrectorIsTotalAfterValidation : Prop :=
  ∀ (mode rev : Bool) (C : List Bool) (s : State), 1 ≤ C.length → hasRoom s.cap C.length → s.presents C →
    ∃ t t', exec (.cor mode rev C.length) s = .next t ∧ exec (.dec mode rev C.length) s = .next t' ∧
      t.rspSt = 0#2 ∧ t.rspLen = t'.rspLen ∧ t.rspLen = C.length - parityCount C.length

/-- 44_corrector.md R123, between two transactions: flip any one bit of the codeword that `ENC` answered with, and `COR` with
the same `rev` answers `OK` with the data. -/
def Obligations.SingleBitErrorIsCorrected : Prop :=
  ∀ (mode mode' rev : Bool) (d : List Bool) (s : State),
    hasRoom s.cap (codewordLen d.length) → s.presents d →
    ∃ t c, exec (.enc mode rev d.length) s = .next t ∧ t.shows (.okBits c) ∧
      ∀ (j : Nat) (s' : State), j < c.length → s'.cap = s.cap → s'.presents (flipIndex c j) →
        ∃ t', exec (.cor mode' rev c.length) s' = .next t' ∧ t'.shows (.okBits d)

/-- 44_corrector.md R124, between two transactions: `COR` of an unchanged codeword answers with the data, for data of at least
one bit; for no data the codeword is empty and `COR` answers `INVALID_INPUT`. -/
def Obligations.UnchangedCodewordDecodes : Prop :=
  ∀ (mode mode' rev : Bool) (d : List Bool) (s : State),
    hasRoom s.cap (codewordLen d.length) → s.presents d →
    ∃ t c, exec (.enc mode rev d.length) s = .next t ∧ t.shows (.okBits c) ∧
      ∀ s' : State, s'.cap = s.cap → s'.presents c →
        ∃ t', exec (.cor mode' rev c.length) s' = .next t' ∧
          t'.shows (if d = [] then .error .invalidInput else .okBits d)

/-- 44_corrector.md R125, the part marked as the spec's own inference: with the bits at two positions of a produced codeword
flipped, the syndrome is the XOR of the two, which is never 0 and never one of them. -/
def Obligations.DoubleErrorSyndrome : Prop :=
  ∀ (d : List Bool) (rev : Bool) (a b : Nat), a < codewordLen d.length → b < codewordLen d.length → a ≠ b →
    syndrome (flipIndex (flipIndex (orient rev (enc d rev)) a) b) = Nat.xor (a + 1) (b + 1) ∧
    Nat.xor (a + 1) (b + 1) ≠ 0 ∧ Nat.xor (a + 1) (b + 1) ≠ a + 1 ∧ Nat.xor (a + 1) (b + 1) ≠ b + 1

/-! ### Status and error responses -/

/-- 60_exceptions.md R135: a response's status is 0, 1 or 2; 1 comes from `COR` only. -/
def Obligations.StatusCodes : Prop :=
  ∀ (i : Instr) (s t : State), exec i s = .next t →
    (t.rspSt = 0#2 ∨ t.rspSt = 1#2 ∨ t.rspSt = 2#2) ∧ (t.rspSt = 1#2 → ∃ mode rev len, i = .cor mode rev len)

/-- 60_exceptions.md R137: exactly when each operation answers `CAPACITY`, the form with `KMAX` included; never when
`NMAX = ∞`. -/
def Obligations.CapacityExactly : Prop :=
  (∀ (i : Instr) (s t : State), s.cap = .unbounded → exec i s = .next t → t.rspSt ≠ 2#2) ∧
  (∀ (nmax : Nat) (mode rev : Bool) (len : Nat) (s t : State), s.cap = .bounded nmax →
    (exec (.idxI rev len) s = .next t → (t.rspSt = 2#2 ↔ nmax < len)) ∧
    (exec (.dec mode rev len) s = .next t → (t.rspSt = 2#2 ↔ nmax < len)) ∧
    (exec (.cor mode rev len) s = .next t → (t.rspSt = 2#2 ↔ nmax < len)) ∧
    (exec (.idxO rev len) s = .next t → (t.rspSt = 2#2 ↔ nmax < len ∨ nmax < len + parityBits len)) ∧
    (exec (.enc mode rev len) s = .next t → (t.rspSt = 2#2 ↔ nmax < len ∨ nmax < len + parityBits len)) ∧
    ((nmax < len ∨ nmax < len + parityBits len) ↔ kmax nmax < len))

/-- 60_exceptions.md R136, within the order of R141: exactly when a request answers `INVALID_INPUT`: it is a `COR` within the
capacity whose string is empty or holds a non-binary symbol below `len`; the payload is then empty, without an echo. -/
def Obligations.InvalidInputExactly : Prop :=
  ∀ (i : Instr) (s t : State), exec i s = .next t →
    (t.rspSt = 1#2 ↔ (∃ mode rev, i = .cor mode rev i.len) ∧ hasRoom s.cap i.len ∧
      (i.len = 0 ∨ ∃ j, j < i.len ∧ (s.reqSym.getD j Sym.zero).x = true)) ∧
    (t.rspSt = 1#2 → t.rspLen = 0 ∧ (∀ j, t.rspBitAt j = false) ∧ (∀ j, t.rspIdxAt j = 0) ∧ t.reqSym = s.reqSym)

/-- 44_corrector.md R116: `COR` within the capacity of an empty string, or of one with a non-binary symbol below `len`, answers
`INVALID_INPUT` with an all-zero payload. -/
def Obligations.CorRejectsInvalidInput : Prop :=
  ∀ (mode rev : Bool) (len : Nat) (s : State), hasRoom s.cap len → s.holdsOperand len →
    (len = 0 ∨ ∃ j, j < len ∧ (s.reqSym.getD j Sym.zero).x = true) →
    ∃ t, exec (.cor mode rev len) s = .next t ∧ t.shows ⟨.invalidInput, 0, [], []⟩ ∧ s.sameButResponse t

/-- 60_exceptions.md R137, R140, R141: a request beyond the capacity (for `IDX.O` and `ENC`, one whose codeword is) answers
`CAPACITY` whatever the symbols are, and needs none. -/
def Obligations.OverCapacityAnswers : Prop :=
  (∀ (i : Instr) (s : State), ¬ hasRoom s.cap i.len →
    ∃ t, exec i s = .next t ∧ t.shows ⟨.capacity, 0, [], []⟩ ∧ s.sameButResponse t) ∧
  (∀ (mode rev : Bool) (len : Nat) (s : State), ¬ hasRoom s.cap (codewordLen len) →
    (∃ t, exec (.idxO rev len) s = .next t ∧ t.shows ⟨.capacity, 0, [], []⟩ ∧ s.sameButResponse t) ∧
    (∃ t, exec (.enc mode rev len) s = .next t ∧ t.shows ⟨.capacity, 0, [], []⟩ ∧ s.sameButResponse t))

/-- 60_exceptions.md R140: a response whose status is not `OK` has length 0 and an all-zero payload, and is presented with
`rsp_valid` as any other; the operation has no other effect. -/
def Obligations.ErrorResponseIsEmpty : Prop :=
  ∀ (i : Instr) (s t : State), exec i s = .next t → t.rspSt ≠ 0#2 →
    t.rspValid = true ∧ t.rspLen = 0 ∧ (∀ j, t.rspBitAt j = false) ∧ (∀ j, t.rspIdxAt j = 0) ∧ s.sameButResponse t

/-- 00_scope.md R4: an operation whose operand string is on the ports answers, with the response that is a function of the
capacity, the operation and the operand string alone. -/
def Obligations.ExecIsAFunctionOfTheRequest : Prop :=
  ∀ (i : Instr) (s : State), s.holdsOperand i.len →
    ∃ t, exec i s = .next t ∧ t.shows (responseOf s.cap i (s.reqSym.take i.len))

/-- 60_exceptions.md R145: every request that the ports can carry gets a response, with one of the three statuses. -/
def Obligations.EveryRequestIsAnswered : Prop :=
  ∀ s : State, s.portRequest.presentable s.cap = true →
    ∃ i t, decode s.cap s.reqCmd s.reqLen = .ok i ∧ exec i s = .next t ∧ t.rspValid = true ∧
      (t.rspSt = 0#2 ∨ t.rspSt = 1#2 ∨ t.rspSt = 2#2)

/-- The frame of all five operations (20_memory.md R30, R35): whatever they answer, they write the response ports and nothing
else; every symbol of the request string reads as before. `IDX` leaves all `rsp_bit` 0, the others all `rsp_idx`. -/
def Obligations.OperationsFrame : Prop :=
  ∀ (i : Instr) (s t : State), exec i s = .next t →
    s.sameButResponse t ∧ t.rspValid = true ∧ (∀ j : Nat, t.reqSym[j]? = s.reqSym[j]?) ∧
    (∀ rev len, i = .idxO rev len ∨ i = .idxI rev len → ∀ j, t.rspBitAt j = false) ∧
    (∀ mode rev len, i = .enc mode rev len ∨ i = .dec mode rev len ∨ i = .cor mode rev len → ∀ j, t.rspIdxAt j = 0)

/-! ### The interface -/

/-- A step of a block that is about to answer runs the decoded operation, whether no host move is pending or the host holds.
10_state.md R17 says that the response is `exec(request)` and leaves the delay open: that the block answers in its very next
move is the model's choice (log 16, DESIGN CHOICE), and so is that a hold or an empty list is the block's move (log 6, DESIGN
CHOICE). -/
def Obligations.StepRunsDecodedOperation : Prop :=
  ∀ (s : State) (i : Instr), s.ready → decode s.cap s.reqCmd s.reqLen = .ok i →
    (s.schedule = [] → step s = exec i s) ∧
    (∀ rest, s.schedule = .hold :: rest → step s = exec i { s with schedule := rest })

/-- The word that `withFetchWord` places is the operation that the next step runs. How a request comes onto the ports, and that
the block answers in its next move, are the model's choices (log 13, log 16, log 6). -/
def Obligations.FetchWordRunsNext : Prop :=
  ∀ (s : State) (nbits w : Nat) (i : Instr), decodeTableWord nbits w = some i →
    step (s.withFetchWord nbits w) = exec i (s.withFetchWord nbits w)

/-- Every step keeps the invariant of the interface: port widths, the transaction's phases, the request held still until it is
answered, and the response shown until it is taken back (10_state.md R15 to R17, 70_reset_and_hazards.md R159). -/
def Obligations.StepKeepsInterfaceInvariant : Prop :=
  ∀ s s' : State, s.Inv → step s = .next s' → s'.Inv

/-- The machine after reset meets the invariant, for every capacity that the spec allows. -/
def Obligations.ResetMeetsInvariant : Prop :=
  (∀ cap : Capacity, cap.legal = true → (State.resetFor cap).Inv) ∧ State.reset.Inv

/-- 10_state.md R18: after reset `rsp_valid` is 0 and no transaction is in progress. The other ports' reset values are the
model's (log 2, log 3) and are not stated. -/
def Obligations.ResetIsIdle : Prop :=
  State.reset.rspValid = false ∧ State.reset.txn = none ∧
    ∀ cap : Capacity, (State.resetFor cap).rspValid = false ∧ (State.resetFor cap).txn = none

/-- 70_reset_and_hazards.md R155: reset makes the interface idle whatever its phase, drops the transaction in progress, and
leaves the capacity, the request fields and the host's later moves alone. That `req_valid` is low too is the model's reading
(log 7). -/
def Obligations.ResetMoveMakesIdle : Prop :=
  ∀ (s : State) (rest : List HostMove), s.schedule = .reset :: rest →
    ∃ t, step s = .next t ∧ t.idle ∧ t.cap = s.cap ∧ t.portRequest = s.portRequest ∧ t.schedule = rest

/-- 10_state.md R17: the four phases, from any idle interface: the host drives a request and raises `req_valid`, the block shows
the response to exactly that request, the host lowers `req_valid`, and the interface is idle again. -/
def Obligations.TransactionCompletes : Prop :=
  ∀ (s : State) (r : Request) (rest : List HostMove), s.idle → r.presentable s.cap = true →
    s.schedule = .drive r :: .raise :: .hold :: .lower :: .hold :: rest →
    ∃ s3 s5 resp, runSteps 3 s = .next s3 ∧ requestResponse s.cap r = some resp ∧ s3.shows resp ∧
      s3.portRequest = r ∧ runSteps 2 s3 = .next s5 ∧ s5.idle ∧ s5.cap = s.cap ∧ s5.schedule = rest

/-- 10_state.md R17 phase 4: a response stays on the ports while `req_valid` is high, whatever the host drives on the request
fields. That the block lowers `rsp_valid` only where it finds `req_valid` low is the model's reading (log 22, log 8, DEDUCED). -/
def Obligations.ResponseIsHeldUntilTaken : Prop :=
  ∀ s s' : State, s.rspValid = true → s.reqValid = true → s.txn ≠ none →
    (s.schedule = [] ∨ (∃ rest, s.schedule = .hold :: rest) ∨ (∃ r rest, s.schedule = .drive r :: rest)) →
    step s = .next s' → s.sameResponse s' ∧ s'.txn = s.txn ∧ s'.reqValid = true

/-- 70_reset_and_hazards.md R159: changing a field that the block reads, or lowering `req_valid`, before the response marks the
transaction; a change of symbols at or beyond `req_len` does not (log 17). -/
def Obligations.HoldStillDuty : Prop :=
  ∀ (s : State) (x : Txn) (rest : List HostMove), s.txn = some x → s.rspValid = false →
    (∀ r, s.schedule = .drive r :: rest → r.presentable s.cap = true →
      ∃ t y, step s = .next t ∧ t.txn = some y ∧ y.request = x.request ∧ t.portRequest = r ∧
        (y.disturbed = true ↔ x.disturbed = true ∨ r.cmd ≠ x.request.cmd ∨ r.len ≠ x.request.len ∨
          r.sym.take x.request.len ≠ x.request.sym.take x.request.len)) ∧
    (s.schedule = .lower :: rest →
      ∃ t y, step s = .next t ∧ t.txn = some y ∧ y.request = x.request ∧ y.disturbed = true)

/-- A disturbed transaction is still presented and the interface returns to idle; nothing is said of the response's value (a free
value, log 4). 70_reset_and_hazards.md R159 says that the block still returns to idle when the handshake completes. That
`rsp_valid` rises also where `req_valid` was lowered early is the model's reading (log 18, DEDUCED, unsafe for this very claim),
and that it rises in the host's next hold is its choice (log 6, log 16, DESIGN CHOICE). The request fields are said to be unchanged
when `rsp_valid` rises, not at the end. -/
def Obligations.DisturbedTransactionReturnsToIdle : Prop :=
  ∀ (s : State) (x : Txn) (rest : List HostMove), s.txn = some x → x.disturbed = true → s.rspValid = false →
    s.schedule = .hold :: .lower :: .hold :: rest →
    ∃ s1 s3, step s = .next s1 ∧ s1.rspValid = true ∧ s1.portRequest = s.portRequest ∧
      runSteps 2 s1 = .next s3 ∧ s3.idle ∧ s3.cap = s.cap ∧ s3.schedule = rest

/-- 70_reset_and_hazards.md R162: raising `req_valid` while a transaction is in progress presents no second request. The wire is
high after it, and every other port and the transaction with its copy are as they were (the model's reading, log 8, DEDUCED). -/
def Obligations.SecondRequestIsNotPresented : Prop :=
  ∀ (s : State) (rest : List HostMove), s.schedule = .raise :: rest → s.txn ≠ none →
    step s = .next { s with reqValid := true, schedule := rest }

/-- 30_encoding.md R51: the block never traps or stops on a request: under the invariant a step stops only where the host
drives values that no port carries, which is refused by name (log 9). -/
def Obligations.BlockNeverStops : Prop :=
  ∀ s : State, s.Inv →
    (∃ t, step s = .next t) ∨
    (step s = .refused .unpresentable ∧
      ∃ r rest, s.schedule = .drive r :: rest ∧ r.presentable s.cap = false)

/-- 20_memory.md R30, 10_state.md R14: no move of the block changes a request port, the capacity or the host's pending moves. -/
def Obligations.BlockLeavesRequestPorts : Prop :=
  ∀ s t : State, (s.schedule = [] ∨ ∃ rest, s.schedule = .hold :: rest) → step s = .next t →
    t.portRequest = s.portRequest ∧ t.reqValid = s.reqValid ∧ t.cap = s.cap ∧ t.schedule = s.schedule.tail

/-- 10_state.md R10: nothing an earlier request did changes a response: two blocks of one capacity, whatever happened to them
before, show the same response to the same request. -/
def Obligations.ResponsesDoNotRememberThePast : Prop :=
  ∀ s s' t t' : State, s.ready → s'.ready → s.schedule = [] → s'.schedule = [] → s'.cap = s.cap →
    s'.portRequest = s.portRequest → step s = .next t → step s' = .next t' → t.sameResponse t'
end

