-- ==== Sys2Proof/Laws/State.lean ====
section
/-! SUPPORT. What each update of the state leaves in each field, by definition. -/

namespace Sys2Proof.Machine

@[simp] theorem respond_cap (s : State) (r : Response) : (s.respond r).cap = s.cap := rfl
@[simp] theorem respond_reqValid (s : State) (r : Response) : (s.respond r).reqValid = s.reqValid := rfl
@[simp] theorem respond_reqCmd (s : State) (r : Response) : (s.respond r).reqCmd = s.reqCmd := rfl
@[simp] theorem respond_reqLen (s : State) (r : Response) : (s.respond r).reqLen = s.reqLen := rfl
@[simp] theorem respond_reqSym (s : State) (r : Response) : (s.respond r).reqSym = s.reqSym := rfl
@[simp] theorem respond_rspValid (s : State) (r : Response) : (s.respond r).rspValid = true := rfl
@[simp] theorem respond_rspSt (s : State) (r : Response) : (s.respond r).rspSt = r.st.code := rfl
@[simp] theorem respond_rspLen (s : State) (r : Response) : (s.respond r).rspLen = s.cap.fitLen r.len := rfl
@[simp] theorem respond_rspBit (s : State) (r : Response) : (s.respond r).rspBit = s.cap.fitBits r.bits := rfl
@[simp] theorem respond_rspIdx (s : State) (r : Response) : (s.respond r).rspIdx = s.cap.fitIdx r.idx := rfl
@[simp] theorem respond_txn (s : State) (r : Response) : (s.respond r).txn = s.txn := rfl
@[simp] theorem respond_schedule (s : State) (r : Response) : (s.respond r).schedule = s.schedule := rfl
@[simp] theorem respond_freeCount (s : State) (r : Response) : (s.respond r).freeCount = s.freeCount := rfl

@[simp] theorem freeRsp_cap (s : State) : (s.freeRsp).cap = s.cap := rfl
@[simp] theorem freeRsp_reqValid (s : State) : (s.freeRsp).reqValid = s.reqValid := rfl
@[simp] theorem freeRsp_reqCmd (s : State) : (s.freeRsp).reqCmd = s.reqCmd := rfl
@[simp] theorem freeRsp_reqLen (s : State) : (s.freeRsp).reqLen = s.reqLen := rfl
@[simp] theorem freeRsp_reqSym (s : State) : (s.freeRsp).reqSym = s.reqSym := rfl
@[simp] theorem freeRsp_rspValid (s : State) : (s.freeRsp).rspValid = s.rspValid := rfl
@[simp] theorem freeRsp_rspSt (s : State) : (s.freeRsp).rspSt = Config.freeStatus s.freeCount := rfl
@[simp] theorem freeRsp_rspLen (s : State) : (s.freeRsp).rspLen = s.cap.fitLen (Config.freeLen s.freeCount) := rfl
@[simp] theorem freeRsp_rspBit (s : State) : (s.freeRsp).rspBit = s.cap.fitBits (Config.freeBits s.freeCount) := rfl
@[simp] theorem freeRsp_rspIdx (s : State) : (s.freeRsp).rspIdx = s.cap.fitIdx ((Config.freeIdx s.freeCount).map s.cap.fitLen) := rfl
@[simp] theorem freeRsp_txn (s : State) : (s.freeRsp).txn = s.txn := rfl
@[simp] theorem freeRsp_schedule (s : State) : (s.freeRsp).schedule = s.schedule := rfl
@[simp] theorem freeRsp_freeCount (s : State) : (s.freeRsp).freeCount = s.freeCount + 1 := rfl

@[simp] theorem goIdle_cap (s : State) : (s.goIdle).cap = s.cap := rfl
@[simp] theorem goIdle_reqValid (s : State) : (s.goIdle).reqValid = s.reqValid := rfl
@[simp] theorem goIdle_reqCmd (s : State) : (s.goIdle).reqCmd = s.reqCmd := rfl
@[simp] theorem goIdle_reqLen (s : State) : (s.goIdle).reqLen = s.reqLen := rfl
@[simp] theorem goIdle_reqSym (s : State) : (s.goIdle).reqSym = s.reqSym := rfl
@[simp] theorem goIdle_rspValid (s : State) : (s.goIdle).rspValid = false := rfl
@[simp] theorem goIdle_rspSt (s : State) : (s.goIdle).rspSt = Config.freeStatus s.freeCount := rfl
@[simp] theorem goIdle_rspLen (s : State) : (s.goIdle).rspLen = s.cap.fitLen (Config.freeLen s.freeCount) := rfl
@[simp] theorem goIdle_rspBit (s : State) : (s.goIdle).rspBit = s.cap.fitBits (Config.freeBits s.freeCount) := rfl
@[simp] theorem goIdle_rspIdx (s : State) : (s.goIdle).rspIdx = s.cap.fitIdx ((Config.freeIdx s.freeCount).map s.cap.fitLen) := rfl
@[simp] theorem goIdle_txn (s : State) : (s.goIdle).txn = none := rfl
@[simp] theorem goIdle_schedule (s : State) : (s.goIdle).schedule = s.schedule := rfl
@[simp] theorem goIdle_freeCount (s : State) : (s.goIdle).freeCount = s.freeCount + 1 := rfl

@[simp] theorem respondFree_cap (s : State) : (s.respondFree).cap = s.cap := rfl
@[simp] theorem respondFree_reqValid (s : State) : (s.respondFree).reqValid = s.reqValid := rfl
@[simp] theorem respondFree_reqCmd (s : State) : (s.respondFree).reqCmd = s.reqCmd := rfl
@[simp] theorem respondFree_reqLen (s : State) : (s.respondFree).reqLen = s.reqLen := rfl
@[simp] theorem respondFree_reqSym (s : State) : (s.respondFree).reqSym = s.reqSym := rfl
@[simp] theorem respondFree_rspValid (s : State) : (s.respondFree).rspValid = true := rfl
@[simp] theorem respondFree_rspSt (s : State) : (s.respondFree).rspSt = Config.freeStatus s.freeCount := rfl
@[simp] theorem respondFree_rspLen (s : State) : (s.respondFree).rspLen = s.cap.fitLen (Config.freeLen s.freeCount) := rfl
@[simp] theorem respondFree_rspBit (s : State) : (s.respondFree).rspBit = s.cap.fitBits (Config.freeBits s.freeCount) := rfl
@[simp] theorem respondFree_rspIdx (s : State) : (s.respondFree).rspIdx = s.cap.fitIdx ((Config.freeIdx s.freeCount).map s.cap.fitLen) := rfl
@[simp] theorem respondFree_txn (s : State) : (s.respondFree).txn = s.txn := rfl
@[simp] theorem respondFree_schedule (s : State) : (s.respondFree).schedule = s.schedule := rfl
@[simp] theorem respondFree_freeCount (s : State) : (s.respondFree).freeCount = s.freeCount + 1 := rfl

@[simp] theorem hostReset_cap (s : State) : (hostReset s).cap = s.cap := rfl
@[simp] theorem hostReset_reqValid (s : State) : (hostReset s).reqValid = false := rfl
@[simp] theorem hostReset_reqCmd (s : State) : (hostReset s).reqCmd = s.reqCmd := rfl
@[simp] theorem hostReset_reqLen (s : State) : (hostReset s).reqLen = s.reqLen := rfl
@[simp] theorem hostReset_reqSym (s : State) : (hostReset s).reqSym = s.reqSym := rfl
@[simp] theorem hostReset_rspValid (s : State) : (hostReset s).rspValid = false := rfl
@[simp] theorem hostReset_rspSt (s : State) : (hostReset s).rspSt = Config.freeStatus s.freeCount := rfl
@[simp] theorem hostReset_rspLen (s : State) : (hostReset s).rspLen = s.cap.fitLen (Config.freeLen s.freeCount) := rfl
@[simp] theorem hostReset_rspBit (s : State) : (hostReset s).rspBit = s.cap.fitBits (Config.freeBits s.freeCount) := rfl
@[simp] theorem hostReset_rspIdx (s : State) : (hostReset s).rspIdx = s.cap.fitIdx ((Config.freeIdx s.freeCount).map s.cap.fitLen) := rfl
@[simp] theorem hostReset_txn (s : State) : (hostReset s).txn = none := rfl
@[simp] theorem hostReset_schedule (s : State) : (hostReset s).schedule = s.schedule := rfl
@[simp] theorem hostReset_freeCount (s : State) : (hostReset s).freeCount = s.freeCount + 1 := rfl

@[simp] theorem hostLower_cap (s : State) : (hostLower s).cap = s.cap := rfl
@[simp] theorem hostLower_reqValid (s : State) : (hostLower s).reqValid = false := rfl
@[simp] theorem hostLower_reqCmd (s : State) : (hostLower s).reqCmd = s.reqCmd := rfl
@[simp] theorem hostLower_reqLen (s : State) : (hostLower s).reqLen = s.reqLen := rfl
@[simp] theorem hostLower_reqSym (s : State) : (hostLower s).reqSym = s.reqSym := rfl
@[simp] theorem hostLower_rspValid (s : State) : (hostLower s).rspValid = s.rspValid := rfl
@[simp] theorem hostLower_rspSt (s : State) : (hostLower s).rspSt = s.rspSt := rfl
@[simp] theorem hostLower_rspLen (s : State) : (hostLower s).rspLen = s.rspLen := rfl
@[simp] theorem hostLower_rspBit (s : State) : (hostLower s).rspBit = s.rspBit := rfl
@[simp] theorem hostLower_rspIdx (s : State) : (hostLower s).rspIdx = s.rspIdx := rfl
@[simp] theorem hostLower_txn (s : State) : (hostLower s).txn = s.disturbIf (fun _ => true) := rfl
@[simp] theorem hostLower_schedule (s : State) : (hostLower s).schedule = s.schedule := rfl
@[simp] theorem hostLower_freeCount (s : State) : (hostLower s).freeCount = s.freeCount := rfl

@[simp] theorem withRequest_cap (s : State) (cmd : Cmd) : (s.withRequest cmd).cap = s.cap := rfl
@[simp] theorem withRequest_reqValid (s : State) (cmd : Cmd) : (s.withRequest cmd).reqValid = true := rfl
@[simp] theorem withRequest_reqCmd (s : State) (cmd : Cmd) : (s.withRequest cmd).reqCmd = cmd := rfl
@[simp] theorem withRequest_reqLen (s : State) (cmd : Cmd) : (s.withRequest cmd).reqLen = 0 := rfl
@[simp] theorem withRequest_reqSym (s : State) (cmd : Cmd) : (s.withRequest cmd).reqSym = s.cap.zeroSyms := rfl
@[simp] theorem withRequest_rspValid (s : State) (cmd : Cmd) : (s.withRequest cmd).rspValid = false := rfl
@[simp] theorem withRequest_rspSt (s : State) (cmd : Cmd) : (s.withRequest cmd).rspSt = s.rspSt := rfl
@[simp] theorem withRequest_rspLen (s : State) (cmd : Cmd) : (s.withRequest cmd).rspLen = s.rspLen := rfl
@[simp] theorem withRequest_rspBit (s : State) (cmd : Cmd) : (s.withRequest cmd).rspBit = s.rspBit := rfl
@[simp] theorem withRequest_rspIdx (s : State) (cmd : Cmd) : (s.withRequest cmd).rspIdx = s.rspIdx := rfl
@[simp] theorem withRequest_txn (s : State) (cmd : Cmd) : (s.withRequest cmd).txn = some ⟨⟨cmd, 0, s.cap.zeroSyms⟩, false⟩ := rfl
@[simp] theorem withRequest_schedule (s : State) (cmd : Cmd) : (s.withRequest cmd).schedule = [] := rfl
@[simp] theorem withRequest_freeCount (s : State) (cmd : Cmd) : (s.withRequest cmd).freeCount = s.freeCount := rfl

@[simp] theorem withFetchWord_cap (s : State) (nbits w : Nat) : (s.withFetchWord nbits w).cap = s.cap := rfl
@[simp] theorem withFetchWord_reqValid (s : State) (nbits w : Nat) : (s.withFetchWord nbits w).reqValid = true := rfl
@[simp] theorem withFetchWord_reqCmd (s : State) (nbits w : Nat) : (s.withFetchWord nbits w).reqCmd = tableCommand nbits w := rfl
@[simp] theorem withFetchWord_reqLen (s : State) (nbits w : Nat) : (s.withFetchWord nbits w).reqLen = 0 := rfl
@[simp] theorem withFetchWord_reqSym (s : State) (nbits w : Nat) : (s.withFetchWord nbits w).reqSym = s.cap.zeroSyms := rfl
@[simp] theorem withFetchWord_rspValid (s : State) (nbits w : Nat) : (s.withFetchWord nbits w).rspValid = false := rfl
@[simp] theorem withFetchWord_rspSt (s : State) (nbits w : Nat) : (s.withFetchWord nbits w).rspSt = s.rspSt := rfl
@[simp] theorem withFetchWord_rspLen (s : State) (nbits w : Nat) : (s.withFetchWord nbits w).rspLen = s.rspLen := rfl
@[simp] theorem withFetchWord_rspBit (s : State) (nbits w : Nat) : (s.withFetchWord nbits w).rspBit = s.rspBit := rfl
@[simp] theorem withFetchWord_rspIdx (s : State) (nbits w : Nat) : (s.withFetchWord nbits w).rspIdx = s.rspIdx := rfl
@[simp] theorem withFetchWord_txn (s : State) (nbits w : Nat) : (s.withFetchWord nbits w).txn = some ⟨⟨tableCommand nbits w, 0, s.cap.zeroSyms⟩, false⟩ := rfl
@[simp] theorem withFetchWord_schedule (s : State) (nbits w : Nat) : (s.withFetchWord nbits w).schedule = [] := rfl
@[simp] theorem withFetchWord_freeCount (s : State) (nbits w : Nat) : (s.withFetchWord nbits w).freeCount = s.freeCount := rfl

@[simp] theorem resetFor_cap (cap : Capacity) : (State.resetFor cap).cap = cap := rfl
@[simp] theorem resetFor_reqValid (cap : Capacity) : (State.resetFor cap).reqValid = false := rfl
@[simp] theorem resetFor_reqCmd (cap : Capacity) : (State.resetFor cap).reqCmd = 0#4 := rfl
@[simp] theorem resetFor_reqLen (cap : Capacity) : (State.resetFor cap).reqLen = 0 := rfl
@[simp] theorem resetFor_reqSym (cap : Capacity) : (State.resetFor cap).reqSym = cap.zeroSyms := rfl
@[simp] theorem resetFor_rspValid (cap : Capacity) : (State.resetFor cap).rspValid = false := rfl
@[simp] theorem resetFor_rspSt (cap : Capacity) : (State.resetFor cap).rspSt = 0#2 := rfl
@[simp] theorem resetFor_rspLen (cap : Capacity) : (State.resetFor cap).rspLen = 0 := rfl
@[simp] theorem resetFor_rspBit (cap : Capacity) : (State.resetFor cap).rspBit = cap.fitBits [] := rfl
@[simp] theorem resetFor_rspIdx (cap : Capacity) : (State.resetFor cap).rspIdx = cap.fitIdx [] := rfl
@[simp] theorem resetFor_txn (cap : Capacity) : (State.resetFor cap).txn = none := rfl
@[simp] theorem resetFor_schedule (cap : Capacity) : (State.resetFor cap).schedule = [] := rfl
@[simp] theorem resetFor_freeCount (cap : Capacity) : (State.resetFor cap).freeCount = 0 := rfl

/-- The request on the ports after an update that leaves the three fields alone. -/
@[simp] theorem respond_portRequest (s : State) (r : Response) : (s.respond r).portRequest = s.portRequest := rfl

@[simp] theorem goIdle_portRequest (s : State) : s.goIdle.portRequest = s.portRequest := rfl

@[simp] theorem respondFree_portRequest (s : State) : s.respondFree.portRequest = s.portRequest := rfl

@[simp] theorem hostLower_portRequest (s : State) : (hostLower s).portRequest = s.portRequest := rfl

@[simp] theorem hostRaise_cap (s : State) : (hostRaise s).cap = s.cap := rfl
@[simp] theorem hostRaise_reqValid (s : State) : (hostRaise s).reqValid = true := rfl
@[simp] theorem hostRaise_reqCmd (s : State) : (hostRaise s).reqCmd = s.reqCmd := rfl
@[simp] theorem hostRaise_reqLen (s : State) : (hostRaise s).reqLen = s.reqLen := rfl
@[simp] theorem hostRaise_reqSym (s : State) : (hostRaise s).reqSym = s.reqSym := rfl
@[simp] theorem hostRaise_rspValid (s : State) : (hostRaise s).rspValid = s.rspValid := rfl
@[simp] theorem hostRaise_rspSt (s : State) : (hostRaise s).rspSt = s.rspSt := rfl
@[simp] theorem hostRaise_rspLen (s : State) : (hostRaise s).rspLen = s.rspLen := rfl
@[simp] theorem hostRaise_rspBit (s : State) : (hostRaise s).rspBit = s.rspBit := rfl
@[simp] theorem hostRaise_rspIdx (s : State) : (hostRaise s).rspIdx = s.rspIdx := rfl
@[simp] theorem hostRaise_txn (s : State) : (hostRaise s).txn = some (s.txn.getD ⟨s.portRequest, false⟩) := rfl
@[simp] theorem hostRaise_schedule (s : State) : (hostRaise s).schedule = s.schedule := rfl
@[simp] theorem hostRaise_freeCount (s : State) : (hostRaise s).freeCount = s.freeCount := rfl
@[simp] theorem hostRaise_portRequest (s : State) : (hostRaise s).portRequest = s.portRequest := rfl

@[simp] theorem hostReset_portRequest (s : State) : (hostReset s).portRequest = s.portRequest := rfl

end Sys2Proof.Machine
end

