-- ==== Sys2Proof/Laws/Ops.lean ====
section
/-! SUPPORT. What each shared operation can do, said once: reading operands, answering, the five operations, the host's moves,
the block's move and the step. Later proofs cite these and do not unfold the operations. -/

namespace Sys2Proof.Machine

/-! ### Reading and answering -/

theorem operand?_eq_some {s : State} {len : Nat} {syms : List Sym} :
    s.operand? len = some syms ↔ len ≤ s.reqSym.length ∧ syms = s.reqSym.take len := by
  unfold State.operand?
  split <;> simp_all [eq_comm]

@[simp] theorem operand?_zero (s : State) : s.operand? 0 = some [] := by simp [State.operand?]

/-- An operation that answers needs its symbols on the ports, and writes the response ports. -/
theorem answer_eq_next {s t : State} {count : Nat} {f : List Sym → Response} :
    s.answer count f = .next t ↔ count ≤ s.reqSym.length ∧ t = s.respond (f (s.reqSym.take count)) := by
  unfold State.answer State.operand?
  by_cases h : count ≤ s.reqSym.length <;> simp [h, eq_comm]

/-- An operation is never refused. -/
theorem answer_ne_refused (s : State) (count : Nat) (f : List Sym → Response) (r : Refusal) :
    s.answer count f ≠ .refused r := by
  unfold State.answer
  split <;> simp

/-- The number of symbols that an operation reads: none for `IDX` and for a request beyond the capacity. -/
def symbolsRead (cap : Capacity) : Instr → Nat
  | .idxO _ _ => 0
  | .idxI _ _ => 0
  | .enc _ _ len => readCount (overCapacityOut cap len) len
  | .dec _ _ len => readCount (overCapacityIn cap len) len
  | .cor _ _ len => readCount (overCapacityIn cap len) len

theorem symbolsRead_le (cap : Capacity) (i : Instr) : symbolsRead cap i ≤ i.len := by
  cases i <;> simp only [symbolsRead, Instr.len, readCount] <;> first | omega | (split <;> omega)

/-- Each operation is one answer: its response is a function of the symbols it reads. -/
theorem exec_eq_answer (i : Instr) (s : State) :
    exec i s = s.answer (symbolsRead s.cap i) (responseOf s.cap i) := by
  cases i <;> rfl

/-- What an operation can do when it answers. -/
theorem exec_eq_next {i : Instr} {s t : State} :
    exec i s = .next t ↔ symbolsRead s.cap i ≤ s.reqSym.length ∧
      t = s.respond (responseOf s.cap i (s.reqSym.take (symbolsRead s.cap i))) := by
  rw [exec_eq_answer, answer_eq_next]

/-- A request beyond the capacity reads no symbol, and its response does not depend on any. -/
theorem responseOf_take (cap : Capacity) (i : Instr) (syms : List Sym) :
    responseOf cap i (syms.take (symbolsRead cap i)) = responseOf cap i (syms.take i.len) := by
  cases i with
  | idxO _ _ => rfl
  | idxI _ _ => rfl
  | enc _ _ len =>
    simp only [responseOf, symbolsRead, readCount, encResponse, Instr.len]
    split <;> rfl
  | dec _ _ len =>
    simp only [responseOf, symbolsRead, readCount, decResponse, Instr.len]
    split <;> rfl
  | cor _ _ len =>
    simp only [responseOf, symbolsRead, readCount, corResponse, Instr.len]
    split <;> rfl

/-! ### The host's moves -/

theorem hostDrive_eq_next {r : Request} {s t : State} :
    hostDrive r s = .next t ↔ r.presentable s.cap = true ∧
      t = { s with reqCmd := r.cmd, reqLen := r.len, reqSym := r.sym,
                   txn := s.disturbIf (fun x => readsDiffer x.request r) } := by
  unfold hostDrive
  by_cases h : r.presentable s.cap = true <;> simp [h, eq_comm]

/-- Raising `req_valid` begins a transaction, if none is in progress. -/
theorem hostRaise_of_idle {s : State} (h : s.txn = none) :
    hostRaise s = { s with reqValid := true, txn := some ⟨s.portRequest, false⟩ } := by
  simp [hostRaise, h]

/-- Raising `req_valid` while a transaction is in progress moves the wire only. -/
theorem hostRaise_of_txn {s : State} {x : Txn} (h : s.txn = some x) : hostRaise s = { s with reqValid := true } := by
  simp [hostRaise, h]

theorem disturbIf_eq_some {s : State} {bad : Txn → Bool} {y : Txn} :
    s.disturbIf bad = some y ↔
      ∃ x, s.txn = some x ∧ y = { x with disturbed := x.disturbed || (!s.rspValid && bad x) } := by
  unfold State.disturbIf
  cases s.txn <;> simp [eq_comm]

@[simp] theorem disturbIf_eq_none {s : State} {bad : Txn → Bool} : s.disturbIf bad = none ↔ s.txn = none := by
  simp [State.disturbIf]

/-- Once the response is presented, no host move marks the transaction. -/
theorem disturbIf_of_rspValid {s : State} (h : s.rspValid = true) (bad : Txn → Bool) : s.disturbIf bad = s.txn := by
  unfold State.disturbIf
  cases s.txn <;> simp [h]

/-! ### The block's move and the step -/

/-- What the block can do when it moves to a next state. -/
theorem blockMove_cases {s t : State} (h : blockMove s = .next t) :
    (s.txn = none ∧ t = s) ∨
    (∃ x, s.txn = some x ∧ s.rspValid = true ∧ s.reqValid = true ∧ t = s) ∨
    (∃ x, s.txn = some x ∧ s.rspValid = true ∧ s.reqValid = false ∧ t = s.goIdle) ∨
    (∃ x, s.txn = some x ∧ s.rspValid = false ∧ x.disturbed = true ∧ t = s.respondFree) ∨
    (∃ x i, s.txn = some x ∧ s.rspValid = false ∧ x.disturbed = false ∧
      decode s.cap s.reqCmd s.reqLen = .ok i ∧ exec i s = .next t) := by
  unfold blockMove at h
  cases hx : s.txn with
  | none =>
    simp only [hx, Host.Outcome.next.injEq] at h
    exact .inl ⟨rfl, h.symm⟩
  | some x =>
    right
    simp only [hx] at h
    cases hv : s.rspValid <;> simp only [hv, Bool.false_eq_true, if_false, if_true] at h
    · cases hd : x.disturbed <;> simp only [hd, Bool.false_eq_true, if_false, if_true] at h
      · right; right; right
        unfold execPorts at h
        cases hi : decode s.cap s.reqCmd s.reqLen with
        | ok i =>
          simp only [hi] at h
          exact ⟨x, i, rfl, rfl, hd, rfl, h⟩
        | error e => cases e; simp [hi] at h
      · simp only [Host.Outcome.next.injEq] at h
        exact .inr (.inr (.inl ⟨x, rfl, rfl, hd, h.symm⟩))
    · cases hq : s.reqValid <;> simp only [hq, Bool.false_eq_true, if_false, if_true, Host.Outcome.next.injEq] at h
      · exact .inr (.inl ⟨x, rfl, rfl, rfl, h.symm⟩)
      · exact .inl ⟨x, rfl, rfl, rfl, h.symm⟩

/-- Every step is a move of the block or of the host, on the state without that move. -/
theorem step_eq (s : State) :
    step s = match s.schedule with
      | [] => blockMove s
      | m :: rest => hostMove m { s with schedule := rest } := by
  unfold step
  cases s.schedule <;> rfl

theorem step_of_schedule_nil {s : State} (h : s.schedule = []) : step s = blockMove s := by simp [step, h]

theorem step_of_schedule_cons {s : State} {m : HostMove} {rest : List HostMove} (h : s.schedule = m :: rest) :
    step s = hostMove m { s with schedule := rest } := by simp [step, h]

end Sys2Proof.Machine
end

