-- ==== Sys2Proof/Laws/Ports.lean ====
section
/-! SUPPORT. Values on ports: narrowing leaves a value that fits alone, a response that fits is shown as it is, and every write
of the response ports keeps their widths. -/

namespace Sys2Proof.Machine

/-! ### Capacity -/

theorem exceeded_eq_false {cap : Capacity} {n : Nat} : cap.exceeded n = false ↔ hasRoom cap n := by
  cases cap <;> simp [Capacity.exceeded, hasRoom]

theorem exceeded_eq_true {cap : Capacity} {n : Nat} : cap.exceeded n = true ↔ ¬ hasRoom cap n := by
  rw [← exceeded_eq_false]
  simp

theorem hasRoom_mono {cap : Capacity} {m n : Nat} (h : hasRoom cap n) (hmn : m ≤ n) : hasRoom cap m :=
  fun nmax hc => Nat.le_trans hmn (h nmax hc)

theorem overCapacityIn_eq_false {cap : Capacity} {len : Nat} : overCapacityIn cap len = false ↔ hasRoom cap len :=
  exceeded_eq_false

/-- The second test of the sizing-for-output check includes the first. -/
theorem overCapacityOut_eq_false {cap : Capacity} {len : Nat} :
    overCapacityOut cap len = false ↔ hasRoom cap (codewordLen len) := by
  unfold overCapacityOut
  rw [Bool.or_eq_false_iff, exceeded_eq_false, exceeded_eq_false]
  exact ⟨fun h => h.2, fun h => ⟨hasRoom_mono h (Nat.le_add_right _ _), h⟩⟩

/-! ### Narrowing -/

/-- A length within the capacity is a value of the `LW`-bit field. -/
theorem lenFits_of_hasRoom {cap : Capacity} {n : Nat} (h : hasRoom cap n) : cap.lenFits n = true := by
  cases cap with
  | unbounded => rfl
  | bounded nmax =>
    have hn : n ≤ nmax := h nmax rfl
    have : nmax < 2 ^ (Nat.log2 nmax + 1) := Nat.lt_log2_self
    simp only [Capacity.lenFits, Capacity.lw, decide_eq_true_eq]
    omega

@[simp] theorem lenFits_zero (cap : Capacity) : cap.lenFits 0 = true := by
  cases cap <;> simp [Capacity.lenFits, Capacity.lw]

theorem fitLen_of_lenFits {cap : Capacity} {v : Nat} (h : cap.lenFits v = true) : cap.fitLen v = v := by
  cases cap with
  | unbounded => rfl
  | bounded nmax =>
    simp only [Capacity.lenFits, Capacity.lw, decide_eq_true_eq] at h
    simp only [Capacity.fitLen, Capacity.lw]
    exact Nat.mod_eq_of_lt h

theorem lenFits_fitLen (cap : Capacity) (v : Nat) : cap.lenFits (cap.fitLen v) = true := by
  cases cap with
  | unbounded => rfl
  | bounded nmax =>
    exact decide_eq_true (Nat.mod_lt _ (Nat.two_pow_pos _))

theorem fitBits_getD {cap : Capacity} {l : List Bool} (h : hasRoom cap l.length) (j : Nat) :
    (cap.fitBits l).getD j false = l.getD j false := by
  cases cap with
  | unbounded => rfl
  | bounded nmax =>
    have hl : l.length ≤ nmax := h nmax rfl
    simp only [Capacity.fitBits, List.getD_eq_getElem?_getD, List.getElem?_take, List.getElem?_append,
      List.getElem?_replicate]
    by_cases hj : j < l.length
    · simp [hj, Nat.lt_of_lt_of_le hj hl]
    · by_cases hn : j < nmax <;> simp [hj, hn]
      split <;> rfl

theorem fitIdx_getD {cap : Capacity} {l : List Nat} (hl : ∀ slots, cap.rmax = some slots → l.length ≤ slots)
    (hv : ∀ v ∈ l, cap.lenFits v = true) (j : Nat) : (cap.fitIdx l).getD j 0 = l.getD j 0 := by
  have hmap : l.map cap.fitLen = l := by
    rw [List.map_eq_iff]
    intro i
    cases hi : l[i]? with
    | none => simp
    | some v => simp [fitLen_of_lenFits (hv v (List.mem_of_getElem? hi))]
  unfold Capacity.fitIdx
  cases hr : cap.rmax with
  | none => rfl
  | some slots =>
    have hle := hl slots hr
    simp only [hmap, List.getD_eq_getElem?_getD, List.getElem?_take, List.getElem?_append, List.getElem?_replicate]
    by_cases hj : j < l.length
    · simp [hj, Nat.lt_of_lt_of_le hj hle]
    · by_cases hn : j < slots <;> simp [hj, hn]
      split <;> rfl

/-! ### Writing the response ports -/

/-- A response whose parts fit their ports is shown as it is. -/
theorem shows_respond {s : State} {r : Response} (hlen : s.cap.lenFits r.len = true)
    (hbits : hasRoom s.cap r.bits.length) (hslots : ∀ slots, s.cap.rmax = some slots → r.idx.length ≤ slots)
    (hidx : ∀ v ∈ r.idx, s.cap.lenFits v = true) : (s.respond r).shows r :=
  ⟨rfl, rfl, fitLen_of_lenFits hlen, fitBits_getD hbits, fitIdx_getD hslots hidx⟩

/-- The error response fits every capacity. -/
theorem shows_respond_error (s : State) (st : Status) : (s.respond (.error st)).shows (.error st) :=
  shows_respond (lenFits_zero _) (fun _ _ => Nat.zero_le _) (fun _ _ => Nat.zero_le _) (fun _ h => absurd h (by simp [Response.error]))

/-- An answer writes the response ports and nothing else. -/
theorem sameButResponse_respond (s : State) (r : Response) : s.sameButResponse (s.respond r) :=
  ⟨rfl, rfl, rfl, rfl, rfl, rfl, rfl, rfl⟩

theorem fitBits_length (nmax : Nat) (l : List Bool) : ((Capacity.bounded nmax).fitBits l).length = nmax := by
  simp [Capacity.fitBits]

theorem fitIdx_length {cap : Capacity} {slots : Nat} (h : cap.rmax = some slots) (l : List Nat) :
    (cap.fitIdx l).length = slots := by
  simp [Capacity.fitIdx, h]

theorem lenFits_of_mem_fitIdx {cap : Capacity} {l : List Nat} (hl : ∀ v ∈ l, cap.rmax = none → cap.lenFits v = true)
    {v : Nat} (hv : v ∈ cap.fitIdx l) : cap.lenFits v = true := by
  unfold Capacity.fitIdx at hv
  cases hr : cap.rmax with
  | none =>
    rw [hr] at hv
    exact hl v hv hr
  | some slots =>
    rw [hr] at hv
    have hmem := List.mem_of_mem_take hv
    rw [List.mem_append, List.mem_map, List.mem_replicate] at hmem
    obtain ⟨w, -, rfl⟩ | ⟨-, rfl⟩ := hmem
    · exact lenFits_fitLen cap w
    · exact lenFits_zero cap

/-- With no width, every number is a value of the length field. -/
theorem lenFits_of_rmax_none {cap : Capacity} (h : cap.rmax = none) (v : Nat) : cap.lenFits v = true := by
  cases cap with
  | unbounded => rfl
  | bounded nmax => simp [Capacity.rmax, Capacity.lw] at h

/-- An answer keeps the widths of the response ports. -/
theorem rspFits_respond (s : State) (r : Response) : (s.respond r).rspFits := by
  refine ⟨lenFits_fitLen _ _, ?_, fun slots h => fitIdx_length h _, fun v hv =>
    lenFits_of_mem_fitIdx (fun w _ h => lenFits_of_rmax_none h w) hv⟩
  intro nmax h
  simp only [respond_cap] at h
  simp [h, fitBits_length]

/-- Unspecified response values keep the widths of the response ports. -/
theorem rspFits_freeRsp (s : State) : s.freeRsp.rspFits := by
  refine ⟨lenFits_fitLen _ _, ?_, fun slots h => fitIdx_length h _, fun v hv =>
    lenFits_of_mem_fitIdx (fun w _ h => lenFits_of_rmax_none h w) hv⟩
  intro nmax h
  simp only [freeRsp_cap] at h
  simp [h, fitBits_length]

/-- A request without symbols stands on the ports of every block. -/
theorem zeroSyms_presentable (cap : Capacity) (cmd : Cmd) : Request.presentable cap ⟨cmd, 0, cap.zeroSyms⟩ = true := by
  cases cap <;> simp [Request.presentable, Capacity.symsFit, Capacity.zeroSyms, Request.symbolsNeeded]

end Sys2Proof.Machine
end

