-- ==== Sys2Proof/Laws/Responses.lean ====
section
/-! SUPPORT. The response of each operation, case by case of its checks (60_exceptions.md R141): later proofs cite these and do
not split the definitions. -/

namespace Sys2Proof.Machine

variable {cap : Capacity} {rev : Bool} {len : Nat} {syms : List Sym}

theorem idxIResponse_of_room (h : hasRoom cap len) : idxIResponse cap len = .okIdx (ppiIn len) := by
  simp [idxIResponse, overCapacityIn_eq_false.mpr h]

theorem idxIResponse_of_over (h : ¬ hasRoom cap len) : idxIResponse cap len = .error .capacity := by
  rw [← overCapacityIn_eq_false, Bool.not_eq_false] at h
  simp [idxIResponse, h]

theorem idxOResponse_of_room (h : hasRoom cap (codewordLen len)) : idxOResponse cap len = .okIdx (ppiOut len) := by
  simp [idxOResponse, overCapacityOut_eq_false.mpr h]

theorem idxOResponse_of_over (h : ¬ hasRoom cap (codewordLen len)) : idxOResponse cap len = .error .capacity := by
  rw [← overCapacityOut_eq_false, Bool.not_eq_false] at h
  simp [idxOResponse, h]

theorem encResponse_of_room (h : hasRoom cap (codewordLen len)) :
    encResponse cap rev len syms = .okBits (enc (syms.map bitof) rev) := by
  simp [encResponse, overCapacityOut_eq_false.mpr h]

theorem encResponse_of_over (h : ¬ hasRoom cap (codewordLen len)) :
    encResponse cap rev len syms = .error .capacity := by
  rw [← overCapacityOut_eq_false, Bool.not_eq_false] at h
  simp [encResponse, h]

theorem decResponse_of_room (h : hasRoom cap len) :
    decResponse cap rev len syms = .okBits (dec (syms.map bitof) rev) := by
  simp [decResponse, overCapacityIn_eq_false.mpr h]

theorem decResponse_of_over (h : ¬ hasRoom cap len) : decResponse cap rev len syms = .error .capacity := by
  rw [← overCapacityIn_eq_false, Bool.not_eq_false] at h
  simp [decResponse, h]

theorem corResponse_of_valid (h : hasRoom cap len) (hv : invalidInput syms = false) :
    corResponse cap rev len syms = .okBits (cor (syms.map bitof) rev) := by
  simp [corResponse, overCapacityIn_eq_false.mpr h, hv]

theorem corResponse_of_invalid (h : hasRoom cap len) (hv : invalidInput syms = true) :
    corResponse cap rev len syms = .error .invalidInput := by
  simp [corResponse, overCapacityIn_eq_false.mpr h, hv]

theorem corResponse_of_over (h : ¬ hasRoom cap len) : corResponse cap rev len syms = .error .capacity := by
  rw [← overCapacityIn_eq_false, Bool.not_eq_false] at h
  simp [corResponse, h]

/-- The symbols that present a bit string are read back as it (20_memory.md R26). -/
@[simp] theorem map_bitof_ofBit (d : List Bool) : (d.map Sym.ofBit).map bitof = d := by
  simp [bitof, Sym.ofBit, Function.comp_def]

/-- A non-empty binary string passes the validation (44_corrector.md R116). -/
theorem invalidInput_ofBit {d : List Bool} (h : d ≠ []) : invalidInput (d.map Sym.ofBit) = false := by
  simp [invalidInput, isbin, Sym.ofBit, h]

/-- A request string that begins with a bit string holds it as its operand. -/
theorem holdsOperand_of_presents {s : State} {d : List Bool} (h : s.presents d) : s.holdsOperand d.length := by
  have hlen := congrArg List.length h
  rw [List.length_take, List.length_map] at hlen
  exact min_eq_left_iff.mp hlen

end Sys2Proof.Machine
end

