-- ==== Sys2Proof/Laws/PerInstr.lean ====
section
/-! SUPPORT. The per-instruction family: the encoding of each operation lies in its row of the opcode map and in no other
(30_encoding.md section 3), whatever its ignored bit. -/

namespace Sys2Proof.Laws.TableRow

/-- The rows that select the operation's command word are exactly the row of its mnemonic. -/
def Statement (i : Instr) : Prop :=
  (opcodeMap.filter (fun row => row.selects (encode i).1)).map Sys2Proof.TableRow.mnemonic = [i.mnemonic]

theorem idxO (rev : Bool) (len : Nat) : Statement (.idxO rev len) := by
  cases rev <;> simp [Statement, encode, commandWord, opcodeMap, Sys2Proof.TableRow.selects, Instr.mnemonic]

theorem idxI (rev : Bool) (len : Nat) : Statement (.idxI rev len) := by
  cases rev <;> simp [Statement, encode, commandWord, opcodeMap, Sys2Proof.TableRow.selects, Instr.mnemonic]

theorem enc (mode rev : Bool) (len : Nat) : Statement (.enc mode rev len) := by
  cases mode <;> cases rev <;>
    simp [Statement, encode, commandWord, opcodeMap, Sys2Proof.TableRow.selects, Instr.mnemonic]

theorem dec (mode rev : Bool) (len : Nat) : Statement (.dec mode rev len) := by
  cases mode <;> cases rev <;>
    simp [Statement, encode, commandWord, opcodeMap, Sys2Proof.TableRow.selects, Instr.mnemonic]

theorem cor (mode rev : Bool) (len : Nat) : Statement (.cor mode rev len) := by
  cases mode <;> cases rev <;>
    simp [Statement, encode, commandWord, opcodeMap, Sys2Proof.TableRow.selects, Instr.mnemonic]

end Sys2Proof.Laws.TableRow
end

