-- ==== Sys2Proof/Laws/Positions.lean ====
section
/-! SUPPORT. The small lemmas of the position arithmetic (40_position_arithmetic.md) and of the walks over positions. -/

namespace Sys2Proof.Machine

/-! ### Positions and coverage -/

@[simp] theorem positions_length (m : Nat) : (positions m).length = m := by simp [positions]

@[simp] theorem mem_positions {m q : Nat} : q ∈ positions m ↔ 1 ≤ q ∧ q ≤ m := by
  simp only [positions, List.mem_map, List.mem_range]
  constructor
  · rintro ⟨j, hj, rfl⟩
    omega
  · intro h
    exact ⟨q - 1, by omega, by omega⟩

theorem positions_succ (m : Nat) : positions (m + 1) = positions m ++ [m + 1] := by
  simp [positions, List.range_succ]

theorem positions_pairwise (m : Nat) : (positions m).Pairwise (· < ·) := by
  rw [positions, List.pairwise_map]
  exact List.pairwise_lt_range.imp (by intro a b h; omega)

@[simp] theorem mem_dataPositions {m q : Nat} : q ∈ dataPositions m ↔ (1 ≤ q ∧ q ≤ m) ∧ ispar q = false := by
  simp [dataPositions]

/-- The coverage relation is bit membership (R63). -/
theorem covers_eq_testBit (i q : Nat) : covers i q = q.testBit i := by
  rw [covers, Nat.testBit_eq_decide_div_mod_eq, Nat.shiftRight_eq_div_pow]
  rfl

@[simp] theorem mem_cover {i m q : Nat} : q ∈ cover i m ↔ (1 ≤ q ∧ q ≤ m) ∧ covers i q = true := by
  simp [cover]

/-! ### Counting bits -/

/-- Fuel beyond the value of the number changes nothing. -/
theorem popcountLoop_of_le {p f : Nat} : p ≤ f → popcountLoop f p = popcount p := by
  suffices h : ∀ p f g, p ≤ f → p ≤ g → popcountLoop f p = popcountLoop g p from fun hf => h p f p hf (Nat.le_refl p)
  intro p
  induction p using Nat.strongRecOn with
  | ind p ih =>
    intro f g hf hg
    cases f with
    | zero =>
      obtain rfl : p = 0 := by omega
      cases g <;> rfl
    | succ f =>
      cases g with
      | zero =>
        obtain rfl : p = 0 := by omega
        rfl
      | succ g =>
        simp only [popcountLoop]
        split
        · rfl
        · rw [ih (p / 2) (by omega) f g (by omega) (by omega)]

@[simp] theorem popcount_zero : popcount 0 = 0 := rfl

/-- The last bit, and the rest. -/
theorem popcount_step {p : Nat} (h : p ≠ 0) : popcount p = p % 2 + popcount (p / 2) := by
  conv_lhs => rw [popcount]
  cases p with
  | zero => exact absurd rfl h
  | succ p =>
    simp only [popcountLoop, if_neg h]
    rw [popcountLoop_of_le (by omega)]

/-! ### Parity -/

@[simp] theorem parity_nil : parity [] = false := rfl

theorem foldl_xor (bits : List Bool) (b : Bool) : bits.foldl xor b = xor b (parity bits) := by
  induction bits generalizing b with
  | nil => simp
  | cons a bits ih =>
    rw [parity, List.foldl_cons, List.foldl_cons, ih, ih (xor false a)]
    simp

@[simp] theorem parity_cons (b : Bool) (bits : List Bool) : parity (b :: bits) = xor b (parity bits) := by
  rw [parity, List.foldl_cons, foldl_xor]
  simp

@[simp] theorem parity_append (as bs : List Bool) : parity (as ++ bs) = xor (parity as) (parity bs) := by
  induction as with
  | nil => simp
  | cons a as ih => simp [ih]

/-! ### The search for `r(k)` -/

/-- The search answers the first `r` from its start on that satisfies the inequality, when its fuel reaches one. -/
theorem parityBitsLoop_spec {fuel k r r' : Nat} (hr : r ≤ r') (hf : r' ≤ r + fuel) (h : k + r' + 1 ≤ 2 ^ r') :
    k + parityBitsLoop fuel k r + 1 ≤ 2 ^ parityBitsLoop fuel k r ∧
    ∀ t, r ≤ t → k + t + 1 ≤ 2 ^ t → parityBitsLoop fuel k r ≤ t := by
  induction fuel generalizing r with
  | zero =>
    obtain rfl : r' = r := by omega
    exact ⟨h, fun t ht _ => ht⟩
  | succ fuel ih =>
    simp only [parityBitsLoop]
    by_cases hstop : k + r + 1 ≤ 2 ^ r
    · rw [if_pos hstop]
      exact ⟨hstop, fun t ht _ => ht⟩
    · rw [if_neg hstop]
      have hne : r ≠ r' := by
        rintro rfl
        exact hstop h
      obtain ⟨h1, h2⟩ := ih (r := r + 1) (by omega) (by omega)
      refine ⟨h1, fun t ht hok => h2 t ?_ hok⟩
      rcases Nat.eq_or_lt_of_le ht with rfl | hlt
      · exact absurd hok hstop
      · exact hlt

/-! ### The walk of the indexer -/

/-- The walk ends by its own test as soon as `p` passes the limit. -/
theorem ppiOutLoop_of_lt {fuel p limit : Nat} (h : limit < p) : ppiOutLoop fuel p limit = [] := by
  cases fuel <;> simp [ppiOutLoop, h]

theorem ppiOutLoop_parity {fuel p limit : Nat} (h : p ≤ limit) (hp : ispar p = true) :
    ppiOutLoop (fuel + 1) p limit = (p - 1) :: ppiOutLoop fuel (p + 1) (limit + 1) := by
  simp [ppiOutLoop, Nat.not_lt.mpr h, hp]

theorem ppiOutLoop_data {fuel p limit : Nat} (h : p ≤ limit) (hp : ispar p = false) :
    ppiOutLoop (fuel + 1) p limit = ppiOutLoop fuel (p + 1) limit := by
  simp [ppiOutLoop, Nat.not_lt.mpr h, hp]

end Sys2Proof.Machine
end

