-- ==== Sys2Proof/Laws/Strings.lean ====
section
/-! SUPPORT. The small lemmas of the operations on strings: orientation, flips, the encoder's and the decoder's walks. -/

namespace Sys2Proof.Machine

/-! ### Orientation and reading -/

@[simp] theorem orient_false (str : List Bool) : orient false str = str := rfl

@[simp] theorem orient_true (str : List Bool) : orient true str = str.reverse := rfl

@[simp] theorem orient_orient (rev : Bool) (str : List Bool) : orient rev (orient rev str) = str := by
  cases rev <;> simp

@[simp] theorem orient_length (rev : Bool) (str : List Bool) : (orient rev str).length = str.length := by
  cases rev <;> simp

/-- Reading a position right after writing one (R27: position `q` is index `q - 1`). -/
theorem bitAt_set {str : List Bool} {j q : Nat} {b : Bool} (hj : j < str.length) (hq : 1 ≤ q) :
    bitAt (str.set j b) q = if q = j + 1 then b else bitAt str q := by
  obtain ⟨i, rfl⟩ : ∃ i, q = i + 1 := ⟨q - 1, by omega⟩
  simp only [bitAt, List.getD_eq_getElem?_getD, List.getElem?_set, Nat.add_sub_cancel]
  by_cases h : j = i
  · simp [h, h ▸ hj]
  · simp [h, Ne.symm h]

@[simp] theorem flipIndex_length (c : List Bool) (j : Nat) : (flipIndex c j).length = c.length := by simp [flipIndex]

/-- A second flip at the same index undoes the first. -/
theorem flipIndex_flipIndex (c : List Bool) (j : Nat) : flipIndex (flipIndex c j) j = c := by
  by_cases h : j < c.length
  · simp [flipIndex, h]
  · simp [flipIndex, List.set_eq_of_length_le (Nat.not_lt.mp h)]

@[simp] theorem flipAt_length (W : List Bool) (E : Nat) : (flipAt W E).length = W.length := by
  unfold flipAt
  split <;> simp

theorem flipAt_eq_flipIndex {W : List Bool} {E : Nat} (h : 0 < E) (hE : E ≤ W.length) :
    flipAt W E = flipIndex W (E - 1) := by
  simp [flipAt, flipIndex, bitAt, h, hE]

theorem flipAt_eq_self {W : List Bool} {E : Nat} (h : E = 0 ∨ W.length < E) : flipAt W E = W := by
  unfold flipAt
  rw [if_neg (by omega)]

/-! ### The walks -/

@[simp] theorem placeFrom_length (P : List Nat) (count j : Nat) (data : List Bool) :
    (placeFrom P count j data).length = count := by
  induction count generalizing j data with
  | zero => rfl
  | succ count ih =>
    simp only [placeFrom]
    split <;> simp [ih]

@[simp] theorem writeParity_length (W : List Bool) (r n : Nat) : (writeParity W r n).length = W.length := by
  unfold writeParity
  induction r with
  | zero => rfl
  | succ r ih => simp [List.range_succ, ih]

theorem strip_nil (P : List Nat) : strip P [] = [] := rfl

/-- Stripping a string and then one more bit. -/
theorem strip_concat (P : List Nat) (L : List Bool) (b : Bool) :
    strip P (L ++ [b]) = strip P L ++ (if P.contains L.length then [] else [b]) := by
  unfold strip
  rw [List.zipIdx_append, List.filter_append, List.map_append]
  congr 1
  by_cases h : P.contains L.length = true <;> simp_all

end Sys2Proof.Machine
end

