-- ==== Sys2Proof/Tests/Slice0.lean ====
section
/-! SUPPORT. Tests: the well-formedness smoke, command words written out from 30_encoding.md, single steps with the results of
95_test_vectors.md, and for every statement with hypotheses a witness that meets them. -/

namespace Sys2Proof.Tests

open Sys2Proof.Machine

/-! ### Helpers -/

/-- A bit string from its characters. -/
def bits (str : String) : List Bool := str.toList.map (fun c => c == '1')

/-- A request string from its characters; any character but `0` and `1` is a non-binary symbol (30_encoding.md R53). -/
def symbols (str : String) : List Sym :=
  str.toList.map (fun c => if c == '0' then ⟨false, false⟩ else if c == '1' then ⟨false, true⟩ else ⟨true, false⟩)

/-- The symbol array that holds a request string. -/
def symArray (cap : Capacity) (syms : List Sym) : List Sym :=
  match cap with
  | .bounded nmax => (syms ++ List.replicate nmax Sym.zero).take nmax
  | .unbounded => syms

/-- A block of this capacity that is about to answer this request. -/
def onPorts (cap : Capacity) (cmd : Cmd) (len : Nat) (syms : List Sym) : State :=
  { State.resetFor cap with
    reqValid := true
    reqCmd := cmd
    reqLen := len
    reqSym := symArray cap syms
    txn := some ⟨⟨cmd, len, symArray cap syms⟩, false⟩ }

/-- The response on the ports, each payload up to the last element that is not 0. -/
def shown : Host.Outcome State Fault Refusal → Option (StCode × Nat × List Bool × List Nat)
  | .next t =>
    if t.rspValid then
      some (t.rspSt, t.rspLen, (t.rspBit.reverse.dropWhile (fun b => !b)).reverse,
        (t.rspIdx.reverse.dropWhile (fun v => v == 0)).reverse)
    else none
  | _ => none

/-- The operation answers. -/
def answers : Host.Outcome State Fault Refusal → Bool
  | .next _ => true
  | _ => false

theorem exists_next {o : Host.Outcome State Fault Refusal} (h : answers o = true) : ∃ t, o = .next t := by
  cases o with
  | next t => exact ⟨t, rfl⟩
  | fault f => exact absurd h (by simp [answers])
  | refused r => exact absurd h (by simp [answers])

/-! ### Well-formedness smoke -/

theorem test_wf_refuses_length_wider_than_port : Instr.wf (.bounded 71) (.enc false true 128) = false := by decide

theorem test_wf_accepts_longest_length : Instr.wf (.bounded 71) (.enc false true 127) = true := by decide

theorem test_presentable_refuses_length_wider_than_port :
    Request.presentable (.bounded 71) ⟨0x1#4, 128, List.replicate 71 Sym.zero⟩ = false := by decide

theorem test_presentable_refuses_short_array :
    Request.presentable (.bounded 71) ⟨0x1#4, 7, List.replicate 70 Sym.zero⟩ = false := by decide

theorem test_presentable_refuses_missing_symbols :
    Request.presentable .unbounded ⟨0x1#4, 7, List.replicate 6 Sym.zero⟩ = false := by decide

theorem test_presentable_accepts_idx_without_symbols : Request.presentable .unbounded ⟨0x8#4, 7, []⟩ = true := by decide

theorem test_capacity_refuses_70 : (Capacity.bounded 70).legal = false := by decide

/-! ### Decoding: words written out from 30_encoding.md section 3 (`mode rev op`) -/

theorem test_decode_idxO : decode (.bounded 71) 0b0000#4 7 = .ok (.idxO false 7) := by decide

theorem test_decode_idxI : decode (.bounded 71) 0b1000#4 11 = .ok (.idxI false 11) := by decide

theorem test_decode_encR : decode (.bounded 71) 0b0101#4 7 = .ok (.enc false true 7) := by decide

theorem test_decode_dec : decode (.bounded 71) 0b0010#4 12 = .ok (.dec false false 12) := by decide

theorem test_decode_corR : decode (.bounded 71) 0b0111#4 4 = .ok (.cor false true 4) := by decide

theorem test_decode_refuses_wide_length : decode (.bounded 71) 0b0001#4 128 = .error .lenTooWide := by decide

theorem test_decodeTableWord_cor : decodeTableWord 8 0x3 = some (.cor false false 0) := by decide

/-- 20_memory.md R26: `sym[1]` is `x`, `sym[0]` is `b`. -/
theorem test_symbol_wires : symOfWires 0b10#2 = ⟨true, false⟩ ∧ symOfWires 0b01#2 = ⟨false, true⟩ := by decide

/-! ### One step of each operation (95_test_vectors.md) -/

/-- Section 2.2: `IDX.O 7`, and with `NMAX = 71` `IDX.O 65` is beyond the capacity. -/
theorem test_idxO_7 : shown (step (onPorts (.bounded 71) 0x0#4 7 [])) = some (0#2, 4, [], [0, 1, 3, 7]) := by decide

theorem test_idxO_65 : shown (step (onPorts (.bounded 71) 0x0#4 65 [])) = some (2#2, 0, [], []) := by decide

/-- Section 2.2: `IDX.I 71`, and `IDX.I 7` with the ignored `rev` bit and arbitrary symbols. -/
theorem test_idxI_71 :
    shown (step (onPorts (.bounded 71) 0x8#4 71 [])) = some (0#2, 7, [], [0, 1, 3, 7, 15, 31, 63]) := by decide

theorem test_idxI_7_ignores_rev :
    shown (step (onPorts (.bounded 71) 0xC#4 7 (symbols "1a1"))) = some (0#2, 3, [], [0, 1, 3]) := by decide

/-- Section 2.3: `ENC.R "1011001"`, and `ENC "1010"` with the ignored `mode` bit. -/
theorem test_encR_1011001 :
    shown (step (onPorts (.bounded 71) 0x5#4 7 (symbols "1011001"))) = some (0#2, 11, bits "1010100111", []) := by decide

theorem test_enc_1010_ignores_mode :
    shown (step (onPorts .unbounded 0x9#4 4 (symbols "1010"))) = some (0#2, 7, bits "101101", []) := by decide

/-- Section 2.4: `DEC.R "10110100"` (a length the encoder never produces), `DEC` of the wrong `rev`. -/
theorem test_decR_10110100 :
    shown (step (onPorts (.bounded 71) 0x6#4 8 (symbols "10110100"))) = some (0#2, 4, bits "0111", []) := by decide

theorem test_dec_wrong_rev :
    shown (step (onPorts (.bounded 71) 0x2#4 11 (symbols "10101001110"))) = some (0#2, 7, bits "110011", []) := by decide

/-- Section 2.5: `COR.R "10100001110"` with one bit flipped; section 1 E4: `COR.R "10a1"`. -/
theorem test_corR_10100001110 :
    shown (step (onPorts (.bounded 71) 0x7#4 11 (symbols "10100001110"))) = some (0#2, 7, bits "1011001", []) := by decide

theorem test_corR_10a1 :
    shown (step (onPorts (.bounded 71) 0x7#4 4 (symbols "10a1"))) = some (1#2, 0, [], []) := by decide

/-- Section 2.5: the syndrome needs the parity bit's own position (90_conflicts.md C5). -/
theorem test_syndrome_111 : syndrome (bits "111") = 0 ∧ syndrome (bits "01110000101") = 7 := by decide

/-! ### The interface -/

/-- The step after `withFetchWord` answers: `COR` of the empty string is `INVALID_INPUT`. -/
theorem test_fetch_word_runs : shown (step (State.reset.withFetchWord 8 0x3)) = some (1#2, 0, [], []) := by decide

/-- Program 1, step 1 (95_test_vectors.md section 4), from reset: drive, raise, and the block answers. -/
theorem test_handshake_from_reset :
    shown (runSteps 3 { State.reset with
      schedule := [.drive ⟨0x5#4, 7, symArray (.bounded 71) (symbols "1011001")⟩, .raise, .hold] }) =
      some (0#2, 11, bits "1010100111", []) := by decide

/-! ### Witnesses: states and operands that meet the hypotheses of the statements -/

theorem room71 : hasRoom (.bounded 71) 71 := exceeded_eq_false.mp (by decide)

theorem room71_codeword64 : hasRoom (.bounded 71) (codewordLen 64) := exceeded_eq_false.mp (by decide)

theorem noRoom72 : ¬ hasRoom (.bounded 71) 72 := exceeded_eq_true.mp (by decide)

theorem noRoom_codeword65 : ¬ hasRoom (.bounded 71) (codewordLen 65) := exceeded_eq_true.mp (by decide)

/-- Sixty-four data bits on the ports. -/
def sixtyFour : State := onPorts (.bounded 71) 0x5#4 64 (symbols "1" ++ List.replicate 62 Sym.zero ++ symbols "1")

theorem witness_DecodeInvertsEncode :
    Instr.wf (.bounded 71) (.cor true true 127) = true ∧
    decode .unbounded 0xF#4 1000 = .ok (.cor true true 1000) := by decide

theorem witness_IgnoredFieldsDoNotMatter :
    (∃ t t', exec (.idxO false 64) (onPorts (.bounded 71) 0x0#4 64 []) = .next t ∧
      exec (.idxO true 64) (onPorts (.bounded 71) 0x4#4 64 (symbols "1a")) = .next t') ∧
    (∃ t t', exec (.idxI false 71) (onPorts (.bounded 71) 0x8#4 71 []) = .next t ∧
      exec (.idxI true 71) (onPorts (.bounded 71) 0xC#4 71 (symbols "1a")) = .next t') ∧
    ((onPorts (.bounded 71) 0x9#4 1 (symbols "1a")).reqSym.take 1 = (onPorts (.bounded 71) 0x1#4 1 (symbols "10")).reqSym.take 1 ∧
      ∃ t t', exec (.enc false false 1) (onPorts (.bounded 71) 0x1#4 1 (symbols "10")) = .next t ∧
        exec (.enc true false 1) (onPorts (.bounded 71) 0x9#4 1 (symbols "1a")) = .next t') ∧
    (∃ t t', exec (.dec false false 1) (onPorts (.bounded 71) 0x2#4 1 (symbols "10")) = .next t ∧
      exec (.dec true false 1) (onPorts (.bounded 71) 0xA#4 1 (symbols "1a")) = .next t') ∧
    (∃ t t', exec (.cor false false 1) (onPorts (.bounded 71) 0x3#4 1 (symbols "10")) = .next t ∧
      exec (.cor true false 1) (onPorts (.bounded 71) 0xB#4 1 (symbols "1a")) = .next t') := by
  refine ⟨?_, ?_, ⟨by decide, ?_⟩, ?_, ?_⟩ <;>
    exact ⟨_, _, (exists_next (by decide)).choose_spec, (exists_next (by decide)).choose_spec⟩

theorem witness_ParityPositionsArePowersOfTwo : 1 ≤ 64 ∧ ispar 64 = true ∧ ispar 71 = false := by decide

theorem witness_CoverageProperties :
    covers 3 (2 ^ 3) = true ∧ 3 ∈ cover 0 3 ∧ 3 ≠ 2 ^ 0 ∧ 2 ^ 3 ≤ 8 ∧
    (∀ q, 1 ≤ q → q ≤ 3 → ispar q = false → bitAt (bits "001") q = bitAt (bits "111") q) := by
  refine ⟨by decide, by decide, by decide, by decide, ?_⟩
  intro q h1 h3 hq
  obtain rfl | rfl | rfl : q = 1 ∨ q = 2 ∨ q = 3 := by omega
  · exact absurd hq (by decide)
  · exact absurd hq (by decide)
  · decide

/-- Both ends of every row of the table of 40_position_arithmetic.md R68. -/
theorem witness_ParityBitsIsSmallest :
    1 + 2 + 1 ≤ 2 ^ 2 ∧ [0, 1, 2, 4, 5, 11, 12, 26, 27, 57, 58, 120, 121, 247].map parityBits =
      [0, 2, 3, 3, 4, 4, 5, 5, 6, 6, 7, 7, 8, 8] := by decide

theorem witness_DataLengthsOfEachParityCount : 2 ≤ 2 ∧ parityBits 1 = 2 ∧ 2 ^ (2 - 1) + 1 ≤ 1 + 2 ∧ 1 + 2 + 1 ≤ 2 ^ 2 := by
  decide

theorem witness_CodewordLengths : 0 < 1 ∧ codewordLen 0 = 0 ∧ codewordLen 1 = 3 ∧ codewordLen 64 = 71 := by decide

theorem witness_IndexerFindsSmallestParityCount : 7 + 4 + 1 ≤ 2 ^ 4 ∧ 1 ≤ 7 ∧ (ppiOut 7).length = 4 := by decide

theorem witness_IdxInAnswers :
    hasRoom (onPorts (.bounded 71) 0x8#4 71 []).cap 71 ∧ ¬ hasRoom (onPorts (.bounded 71) 0x8#4 72 []).cap 72 :=
  ⟨room71, noRoom72⟩

theorem witness_IdxOutAnswers :
    hasRoom (onPorts (.bounded 71) 0x0#4 64 []).cap (64 + parityBits 64) ∧
    ¬ hasRoom (onPorts (.bounded 71) 0x0#4 65 []).cap (65 + parityBits 65) :=
  ⟨room71_codeword64, noRoom_codeword65⟩

theorem witness_EncAnswers : hasRoom sixtyFour.cap (codewordLen 64) ∧ sixtyFour.holdsOperand 64 :=
  ⟨room71_codeword64, by unfold State.holdsOperand; decide⟩

theorem witness_EncodedCodeword : 6 < (bits "1011001").length ∧ 3 < parityBits (bits "1011001").length := by decide

theorem witness_ProducedChecksAreEven : 3 < parityBits (bits "1011001").length := by decide

theorem witness_EncAndDecReadTheBWireOnly :
    ((onPorts (.bounded 71) 0x1#4 1 [⟨true, true⟩]).reqSym.take 1).map Sym.b =
      ((onPorts (.bounded 71) 0x1#4 1 [⟨false, true⟩]).reqSym.take 1).map Sym.b ∧
    (∃ t t', exec (.enc false false 1) (onPorts (.bounded 71) 0x1#4 1 [⟨false, true⟩]) = .next t ∧
      exec (.enc false false 1) (onPorts (.bounded 71) 0x1#4 1 [⟨true, true⟩]) = .next t') ∧
    (∃ t t', exec (.dec false false 1) (onPorts (.bounded 71) 0x2#4 1 [⟨false, true⟩]) = .next t ∧
      exec (.dec false false 1) (onPorts (.bounded 71) 0x2#4 1 [⟨true, true⟩]) = .next t') := by
  refine ⟨by decide, ?_, ?_⟩ <;>
    exact ⟨_, _, (exists_next (by decide)).choose_spec, (exists_next (by decide)).choose_spec⟩

theorem witness_DecAnswers :
    hasRoom (onPorts (.bounded 71) 0x2#4 71 []).cap 71 ∧ (onPorts (.bounded 71) 0x2#4 71 []).holdsOperand 71 :=
  ⟨room71, by unfold State.holdsOperand; decide⟩

theorem witness_DecoderClosedForm : 6 < (bits "10100111001").length - parityCount (bits "10100111001").length := by decide

theorem witness_DecoderIsLeftInverse :
    (bits "001").length = (bits "111").length ∧
    (∀ q, q ∈ dataPositions (bits "001").length → bitAt (orient false (bits "001")) q = bitAt (orient false (bits "111")) q) := by
  decide

theorem witness_EncodeThenDecodeReturnsData :
    hasRoom (onPorts (.bounded 71) 0x5#4 7 (symbols "1011001")).cap (codewordLen (bits "1011001").length) ∧
    (onPorts (.bounded 71) 0x5#4 7 (symbols "1011001")).presents (bits "1011001") ∧
    (onPorts (.bounded 71) 0x6#4 11 (symbols "10101001110")).presents (enc (bits "1011001") true) :=
  ⟨exceeded_eq_false.mp (by decide), by unfold State.presents; decide, by unfold State.presents; decide⟩

theorem witness_CorAnswers :
    bits "1" ≠ [] ∧ hasRoom (onPorts (.bounded 71) 0x3#4 1 (symbols "1")).cap (bits "1").length ∧
    (onPorts (.bounded 71) 0x3#4 1 (symbols "1")).presents (bits "1") :=
  ⟨by decide, exceeded_eq_false.mp (by decide), by unfold State.presents; decide⟩

theorem witness_SyndromeIsXorOfOnePositions : 3 < parityCount (bits "01110000101").length := by decide

theorem witness_CorrectorFlipsAtSyndrome :
    (0 < syndrome (orient false (bits "110")) ∧ syndrome (orient false (bits "110")) = (bits "110").length) ∧
    syndrome (orient false (bits "111")) = 0 ∧
    (bits "10110").length < syndrome (orient false (bits "10110")) := by decide

theorem witness_CorrectorIsTotalAfterValidation :
    1 ≤ (bits "1").length ∧ hasRoom (onPorts (.bounded 71) 0x3#4 1 (symbols "1")).cap (bits "1").length ∧
    (onPorts (.bounded 71) 0x3#4 1 (symbols "1")).presents (bits "1") :=
  ⟨by decide, exceeded_eq_false.mp (by decide), by unfold State.presents; decide⟩

/-- The first and the last character of the scenario-1 codeword flipped (95_test_vectors.md section 2.5). -/
theorem witness_SingleBitErrorIsCorrected :
    hasRoom (onPorts (.bounded 71) 0x5#4 7 (symbols "1011001")).cap (codewordLen (bits "1011001").length) ∧
    (onPorts (.bounded 71) 0x5#4 7 (symbols "1011001")).presents (bits "1011001") ∧
    0 < (enc (bits "1011001") true).length ∧ 10 < (enc (bits "1011001") true).length ∧
    (onPorts (.bounded 71) 0x7#4 11 (symbols "00101001110")).presents (flipIndex (enc (bits "1011001") true) 0) ∧
    (onPorts (.bounded 71) 0x7#4 11 (symbols "10101001111")).presents (flipIndex (enc (bits "1011001") true) 10) :=
  ⟨exceeded_eq_false.mp (by decide), by unfold State.presents; decide, by decide, by decide, by unfold State.presents; decide,
    by unfold State.presents; decide⟩

theorem witness_UnchangedCodewordDecodes :
    hasRoom (onPorts (.bounded 71) 0x5#4 7 (symbols "1011001")).cap (codewordLen (bits "1011001").length) ∧
    (onPorts (.bounded 71) 0x5#4 7 (symbols "1011001")).presents (bits "1011001") ∧
    (onPorts (.bounded 71) 0x7#4 11 (symbols "10101001110")).presents (enc (bits "1011001") true) ∧
    hasRoom (onPorts (.bounded 71) 0x5#4 0 []).cap (codewordLen (bits "").length) ∧
    (onPorts (.bounded 71) 0x5#4 0 []).presents (bits "") ∧ (onPorts (.bounded 71) 0x7#4 0 []).presents (enc [] true) :=
  ⟨exceeded_eq_false.mp (by decide), by unfold State.presents; decide, by unfold State.presents; decide,
    exceeded_eq_false.mp (by decide), by unfold State.presents; decide, by unfold State.presents; decide⟩

theorem witness_DoubleErrorSyndrome :
    4 < codewordLen (bits "1011001").length ∧ 10 < codewordLen (bits "1011001").length ∧ 4 ≠ 10 := by decide

theorem witness_StatusCodes :
    shown (exec (.cor false false 0) (onPorts (.bounded 71) 0x3#4 0 [])) = some (1#2, 0, [], []) := by decide

/-- Each operation at the last length within the capacity and the first beyond it, and one without a capacity. -/
theorem witness_CapacityExactly :
    (answers (exec (.idxI false 71) sixtyFour) = true ∧ answers (exec (.idxI false 72) sixtyFour) = true) ∧
    (answers (exec (.dec false false 71) sixtyFour) = true ∧ answers (exec (.dec false false 72) sixtyFour) = true) ∧
    (answers (exec (.cor false false 71) sixtyFour) = true ∧ answers (exec (.cor false false 72) sixtyFour) = true) ∧
    (answers (exec (.idxO false 64) sixtyFour) = true ∧ answers (exec (.idxO false 65) sixtyFour) = true) ∧
    (answers (exec (.enc false true 64) sixtyFour) = true ∧ answers (exec (.enc false true 65) sixtyFour) = true) ∧
    answers (exec (.idxI false 1000) (onPorts .unbounded 0x8#4 1000 [])) = true := by decide

/-- The empty string, a non-binary last symbol, and a non-binary symbol just beyond `len`. -/
theorem witness_InvalidInputExactly :
    shown (exec (.cor false false 0) (onPorts (.bounded 71) 0x3#4 0 [])) = some (1#2, 0, [], []) ∧
    shown (exec (.cor false false 3) (onPorts (.bounded 71) 0x3#4 3 (symbols "11a"))) = some (1#2, 0, [], []) ∧
    shown (exec (.cor false false 3) (onPorts (.bounded 71) 0x3#4 3 (symbols "111a"))) = some (0#2, 1, [true], []) :=
  ⟨by decide, by decide, by decide⟩

theorem witness_CorRejectsInvalidInput :
    hasRoom (onPorts (.bounded 71) 0x3#4 0 []).cap 0 ∧ (onPorts (.bounded 71) 0x3#4 0 []).holdsOperand 0 ∧
    hasRoom (onPorts (.bounded 71) 0x3#4 3 (symbols "11a")).cap 3 ∧
    (onPorts (.bounded 71) 0x3#4 3 (symbols "11a")).holdsOperand 3 ∧
    ((onPorts (.bounded 71) 0x3#4 3 (symbols "11a")).reqSym.getD 2 Sym.zero).x = true :=
  ⟨exceeded_eq_false.mp (by decide), Nat.zero_le _, exceeded_eq_false.mp (by decide), by unfold State.holdsOperand; decide,
    by decide⟩

theorem witness_OverCapacityAnswers :
    ¬ hasRoom sixtyFour.cap (Instr.idxI false 72).len ∧ ¬ hasRoom sixtyFour.cap (codewordLen 65) :=
  ⟨noRoom72, noRoom_codeword65⟩

theorem witness_ErrorResponseIsEmpty :
    shown (exec (.enc false true 65) sixtyFour) = some (2#2, 0, [], []) ∧
    shown (exec (.cor false false 0) sixtyFour) = some (1#2, 0, [], []) := ⟨by decide, by decide⟩

theorem witness_ExecIsAFunctionOfTheRequest : sixtyFour.holdsOperand (Instr.enc false true 64).len := by
  unfold State.holdsOperand
  decide

theorem witness_EveryRequestIsAnswered :
    sixtyFour.portRequest.presentable sixtyFour.cap = true ∧
    (onPorts (.bounded 71) 0x3#4 100 []).portRequest.presentable (.bounded 71) = true ∧
    (onPorts .unbounded 0x8#4 1000 []).portRequest.presentable .unbounded = true := by decide

theorem witness_OperationsFrame :
    answers (exec (.idxO false 64) sixtyFour) = true ∧ answers (exec (.idxI false 64) sixtyFour) = true ∧
    answers (exec (.enc false true 64) sixtyFour) = true ∧ answers (exec (.dec false true 64) sixtyFour) = true ∧
    answers (exec (.cor false true 64) sixtyFour) = true := by decide

theorem witness_StepRunsDecodedOperation :
    sixtyFour.ready ∧ decode sixtyFour.cap sixtyFour.reqCmd sixtyFour.reqLen = .ok (.enc false true 64) ∧
    sixtyFour.schedule = [] ∧ ({ sixtyFour with schedule := [.hold] } : State).ready :=
  ⟨⟨_, rfl, rfl, rfl⟩, by decide, rfl, ⟨_, rfl, rfl, rfl⟩⟩

theorem witness_FetchWordRunsNext : decodeTableWord 8 0xF = some (.cor true true 0) := by decide

/-- An unbounded block about to answer `ENC "1"`. -/
def encOne : State := onPorts .unbounded 0x1#4 1 (symbols "1")

theorem encOne_inv : encOne.Inv where
  capLegal := rfl
  reqFits := by decide
  rspFits := by
    refine ⟨rfl, ?_, ?_, ?_⟩
    · intro nmax h
      exact absurd h (by simp [encOne, onPorts])
    · intro slots h
      exact absurd h (by simp [encOne, onPorts, Capacity.rmax, Capacity.lw])
    · intro v h
      exact absurd h (by simp [encOne, onPorts, Capacity.fitIdx, Capacity.rmax, Capacity.lw])
  noTxnIdle := by simp [encOne, onPorts]
  copyFits := by
    intro t h
    obtain rfl : _ = t := Option.some.inj h
    decide
  heldStill := by
    intro t h _ _
    obtain rfl : _ = t := Option.some.inj h
    exact ⟨rfl, by decide⟩
  answered := by
    intro t _ _ h
    exact absurd h (by simp [encOne, onPorts])

theorem witness_StepKeepsInterfaceInvariant : encOne.Inv ∧ ∃ s', step encOne = .next s' :=
  ⟨encOne_inv, exists_next (by decide)⟩

theorem witness_ResetMeetsInvariant : (Capacity.bounded 71).legal = true ∧ Capacity.unbounded.legal = true := by decide

theorem witness_ResetMoveMakesIdle : ({ sixtyFour with schedule := [.reset] } : State).schedule = .reset :: [] := rfl

theorem witness_TransactionCompletes :
    ({ State.reset with
      schedule := [.drive ⟨0x3#4, 100, List.replicate 71 Sym.zero⟩, .raise, .hold, .lower, .hold] } : State).idle ∧
    Request.presentable (.bounded 71) ⟨0x3#4, 100, List.replicate 71 Sym.zero⟩ = true :=
  ⟨⟨rfl, rfl, rfl⟩, by decide⟩

/-- A block that has answered and whose response the host has not yet taken. -/
def answeredState : State := { sixtyFour with rspValid := true }

theorem witness_ResponseIsHeldUntilTaken :
    answeredState.rspValid = true ∧ answeredState.reqValid = true ∧ answeredState.txn ≠ none ∧
    answers (step answeredState) = true ∧ answers (step { answeredState with schedule := [.hold] }) = true ∧
    answers (step { answeredState with schedule := [.drive ⟨0x0#4, 0, List.replicate 71 Sym.zero⟩] }) = true := by decide

/-- Driving another length, driving a symbol beyond `len` only, and lowering, before the response. -/
theorem witness_HoldStillDuty :
    sixtyFour.txn = some ⟨sixtyFour.portRequest, false⟩ ∧ sixtyFour.rspValid = false ∧
    Request.presentable sixtyFour.cap ⟨0x5#4, 63, sixtyFour.reqSym⟩ = true ∧
    Request.presentable sixtyFour.cap ⟨0x5#4, 64, sixtyFour.reqSym.set 64 ⟨true, true⟩⟩ = true ∧
    readsDiffer sixtyFour.portRequest ⟨0x5#4, 63, sixtyFour.reqSym⟩ = true ∧
    readsDiffer sixtyFour.portRequest ⟨0x5#4, 64, sixtyFour.reqSym.set 64 ⟨true, true⟩⟩ = false := by decide

theorem witness_DisturbedTransactionReturnsToIdle :
    ({ sixtyFour with txn := some ⟨sixtyFour.portRequest, true⟩ } : State).txn = some ⟨sixtyFour.portRequest, true⟩ ∧
    sixtyFour.rspValid = false := ⟨rfl, rfl⟩

/-- With the response presented and `req_valid` lowered, and with a transaction whose `req_valid` was lowered early. -/
theorem witness_SecondRequestIsNotPresented :
    ({ answeredState with reqValid := false, schedule := [.raise] } : State).txn ≠ none ∧
    ({ sixtyFour with
      reqValid := false
      txn := some ⟨sixtyFour.portRequest, true⟩
      schedule := [.raise] } : State).txn ≠ none := by decide

theorem witness_BlockNeverStops : encOne.Inv := encOne_inv

theorem witness_BlockLeavesRequestPorts :
    answers (step sixtyFour) = true ∧ answers (step { sixtyFour with schedule := [.hold] }) = true := by decide

/-- One block fresh from reset, one with free values on its response ports and a count of what happened before. -/
theorem witness_ResponsesDoNotRememberThePast :
    sixtyFour.ready ∧ ({ sixtyFour with rspSt := 1#2, rspLen := 5, freeCount := 9 } : State).ready ∧
    answers (step sixtyFour) = true ∧
    answers (step { sixtyFour with rspSt := 1#2, rspLen := 5, freeCount := 9 }) = true :=
  ⟨⟨_, rfl, rfl, rfl⟩, ⟨_, rfl, rfl, rfl⟩, by decide, by decide⟩

end Sys2Proof.Tests
end

/-! Proofs of the statements of 00_scope.md. -/

section
/-! ### Parity positions are powers of two (40_position_arithmetic.md R60, R61) -/

namespace Sys2Proof.Machine

/-- Doubling appends a low bit 0. -/
theorem popcount_two_mul (p : Nat) : popcount (2 * p) = popcount p := by
  rcases Nat.eq_zero_or_pos p with rfl | hp
  · rfl
  · rw [popcount_step (by omega)]
    simp

/-- Doubling plus one appends a low bit 1. -/
theorem popcount_two_mul_add_one (p : Nat) : popcount (2 * p + 1) = popcount p + 1 := by
  rw [popcount_step (by omega), show (2 * p + 1) % 2 = 1 by omega, show (2 * p + 1) / 2 = p by omega, Nat.add_comm]

theorem popcount_eq_zero {p : Nat} : popcount p = 0 ↔ p = 0 := by
  induction p using Nat.evenOddStrongRec with
  | h_even p ih =>
    rcases Nat.eq_zero_or_pos p with rfl | hp
    · simp
    · rw [popcount_two_mul, ih p (by omega)]
      omega
  | h_odd p _ => simp [popcount_two_mul_add_one]

theorem popcount_eq_one {p : Nat} : popcount p = 1 ↔ ∃ i, p = 2 ^ i := by
  induction p using Nat.evenOddStrongRec with
  | h_even p ih =>
    rw [popcount_two_mul]
    rcases Nat.eq_zero_or_pos p with rfl | hp
    · simpa using fun i => (Nat.two_pow_pos i).ne
    · rw [ih p (by omega)]
      constructor
      · rintro ⟨i, rfl⟩
        exact ⟨i + 1, by rw [pow_succ, Nat.mul_comm]⟩
      · rintro ⟨i, hi⟩
        cases i with
        | zero => omega
        | succ i => exact ⟨i, by rw [pow_succ] at hi; omega⟩
  | h_odd p _ =>
    rw [popcount_two_mul_add_one, Nat.add_eq_right, popcount_eq_zero]
    constructor
    · rintro rfl
      exact ⟨0, rfl⟩
    · rintro ⟨i, hi⟩
      cases i with
      | zero => omega
      | succ i => rw [pow_succ] at hi; omega

theorem ispar_iff {p : Nat} : ispar p = true ↔ ∃ i, p = 2 ^ i := by
  rw [ispar, beq_iff_eq, popcount_eq_one]

end Sys2Proof.Machine
end

section
/-! ### The parity positions of a length (40_position_arithmetic.md R69, 41_parity_position_indexer.md R76) -/

namespace Sys2Proof.Machine

/-- `c(m)` counts the powers of two up to `m` (R69). -/
theorem lt_parityCount {i m : Nat} : i < parityCount m ↔ 2 ^ i ≤ m := by
  unfold parityCount
  split
  next h => simp [h]
  next h => rw [Nat.lt_succ_iff, Nat.le_log2 h]

theorem parityCount_mono {m n : Nat} (h : m ≤ n) : parityCount m ≤ parityCount n :=
  le_of_forall_lt fun _ hi => lt_parityCount.mpr ((lt_parityCount.mp hi).trans h)

theorem parityCount_le (m : Nat) : parityCount m ≤ m := by
  by_contra hlt
  have hpow : 2 ^ m ≤ m := lt_parityCount.mp (not_le.mp hlt)
  exact absurd hpow (not_le.mpr Nat.lt_two_pow_self)

/-- The parity positions up to `m`, ascending, are the first `c(m)` powers of two (R69). -/
theorem positions_filter_ispar (m : Nat) :
    (positions m).filter ispar = (List.range (parityCount m)).map (fun i => 2 ^ i) := by
  have hpow : ((List.range (parityCount m)).map (fun i => 2 ^ i)).Pairwise (· < ·) :=
    List.pairwise_map.mpr (List.pairwise_lt_range.imp fun h => Nat.pow_lt_pow_right (by decide) h)
  refine ((positions_pairwise m).filter _).eq_of_mem_iff hpow fun q => ?_
  simp only [List.mem_filter, mem_positions, ispar_iff, List.mem_map, List.mem_range, lt_parityCount]
  constructor
  · rintro ⟨⟨-, hq⟩, i, rfl⟩
    exact ⟨i, hq, rfl⟩
  · rintro ⟨i, hi, rfl⟩
    exact ⟨⟨Nat.one_le_two_pow, hi⟩, i, rfl⟩

@[simp] theorem ppiIn_length (m : Nat) : (ppiIn m).length = parityCount m := by
  simp [ppiIn, positions_filter_ispar]

theorem lt_of_mem_ppiIn {m v : Nat} (h : v ∈ ppiIn m) : v < m := by
  simp only [ppiIn, List.mem_map, List.mem_filter, mem_positions] at h
  obtain ⟨q, ⟨⟨h1, hq⟩, -⟩, rfl⟩ := h
  omega

/-- One more position adds its index exactly when it is a parity position. -/
theorem ppiIn_succ (m : Nat) : ppiIn (m + 1) = ppiIn m ++ if ispar (m + 1) then [m] else [] := by
  rw [ppiIn, positions_succ, List.filter_append, List.map_append, ppiIn]
  cases h : ispar (m + 1) <;> simp [h]

end Sys2Proof.Machine
end

section
/-! ### Codeword lengths (40_position_arithmetic.md R68, R71) -/

namespace Sys2Proof.Machine

/-- `k + 1` satisfies the inequality of R68. -/
theorem add_succ_add_one_le_two_pow (k : Nat) : k + (k + 1) + 1 ≤ 2 ^ (k + 1) := by
  have : k + 1 ≤ 2 ^ k := Nat.lt_two_pow_self
  rw [pow_succ]
  omega

/-- `r(k)` satisfies the inequality of R68, and nothing smaller does. -/
theorem parityBits_spec (k : Nat) :
    k + parityBits k + 1 ≤ 2 ^ parityBits k ∧ ∀ r, k + r + 1 ≤ 2 ^ r → parityBits k ≤ r := by
  obtain ⟨hle, hmin⟩ :=
    parityBitsLoop_spec (Nat.zero_le _) (Nat.le_add_left _ _) (add_succ_add_one_le_two_pow k)
  exact ⟨hle, fun r => hmin r (Nat.zero_le r)⟩

theorem parityBits_le_of {k r : Nat} (h : k + r + 1 ≤ 2 ^ r) : parityBits k ≤ r := (parityBits_spec k).2 r h

theorem codewordLen_lt_two_pow (k : Nat) : codewordLen k < 2 ^ parityBits k := (parityBits_spec k).1

theorem parityBits_le (k : Nat) : parityBits k ≤ k + 1 := parityBits_le_of (add_succ_add_one_le_two_pow k)

theorem codewordLen_mono {j k : Nat} (h : j ≤ k) : codewordLen j ≤ codewordLen k := by
  have hk := codewordLen_lt_two_pow k
  unfold codewordLen at *
  have hr : parityBits j ≤ parityBits k := parityBits_le_of (by omega)
  omega

/-- A codeword of `k` data bits has `r(k)` parity positions (R71). -/
theorem parityCount_codewordLen (k : Nat) : parityCount (codewordLen k) = parityBits k := by
  refine eq_of_forall_lt_iff fun i => ?_
  rw [lt_parityCount]
  constructor
  · intro hi
    exact (Nat.pow_lt_pow_iff_right (by decide)).mp (hi.trans_lt (codewordLen_lt_two_pow k))
  · intro hi
    by_contra hlt
    have := parityBits_le_of (k := k) (r := i) (by unfold codewordLen at hlt; omega)
    omega

/-- The first `q` positions leave data to place, as long as the codeword has not ended. -/
theorem lt_add_parityCount {k q : Nat} (h : q < codewordLen k) : q < k + parityCount q := by
  by_contra hge
  have hq : q < 2 ^ parityCount q := not_le.mp (mt lt_parityCount.mpr (lt_irrefl _))
  have hr : parityBits k ≤ parityCount q := parityBits_le_of (by omega)
  unfold codewordLen at h
  omega

end Sys2Proof.Machine
end

section
/-! ### The walk of the indexer (41_parity_position_indexer.md R77, R80) -/

namespace Sys2Proof.Machine

/-- The walk from any position of the codeword completes the parity indices below it to those of the whole codeword. -/
theorem ppiIn_append_ppiOutLoop {k fuel q : Nat} (hq : q ≤ codewordLen k) (hf : codewordLen k ≤ q + fuel) :
    ppiIn q ++ ppiOutLoop fuel (q + 1) (k + (ppiIn q).length) = ppiIn (codewordLen k) := by
  induction fuel generalizing q with
  | zero =>
    obtain rfl : q = codewordLen k := by omega
    simp [ppiOutLoop]
  | succ fuel ih =>
    rcases Nat.eq_or_lt_of_le hq with rfl | hlt
    · have hend : k + (ppiIn (codewordLen k)).length = codewordLen k := by
        rw [ppiIn_length, parityCount_codewordLen, codewordLen]
      rw [ppiOutLoop_of_lt (by omega), List.append_nil]
    · have hle : q + 1 ≤ k + (ppiIn q).length := by
        rw [ppiIn_length]
        exact lt_add_parityCount hlt
      have ih := ih (q := q + 1) hlt (by omega)
      cases hp : ispar (q + 1) with
      | true =>
        rw [ppiOutLoop_parity hle hp]
        simpa [ppiIn_succ, hp, Nat.add_assoc] using ih
      | false =>
        rw [ppiOutLoop_data hle hp]
        simpa [ppiIn_succ, hp] using ih

/-- Sizing for output finds the parity indices of the codeword (R80). -/
theorem ppiOut_eq_ppiIn (k : Nat) : ppiOut k = ppiIn (codewordLen k) := by
  have hfuel : codewordLen k ≤ 0 + (2 * k + 2) := by
    have := parityBits_le k
    unfold codewordLen
    omega
  exact ppiIn_append_ppiOutLoop (Nat.zero_le _) hfuel

@[simp] theorem ppiOut_length (k : Nat) : (ppiOut k).length = parityBits k := by
  rw [ppiOut_eq_ppiIn, ppiIn_length, parityCount_codewordLen]

end Sys2Proof.Machine
end

section
/-! ### Lengths of the results (42_encoder.md R90, 43_decoder.md R106, 44_corrector.md R127) -/

namespace Sys2Proof.Machine

@[simp] theorem enc_length (d : List Bool) (rev : Bool) : (enc d rev).length = codewordLen d.length := by
  simp [enc, place, codewordLen]

theorem strip_length_le (P : List Nat) (L : List Bool) : (strip P L).length ≤ L.length := by
  rw [strip, List.length_map]
  exact (List.length_filter_le _ _).trans_eq List.length_zipIdx

theorem dec_length_le (C : List Bool) (rev : Bool) : (dec C rev).length ≤ C.length := by
  rw [dec, orient_length]
  exact (strip_length_le _ _).trans_eq (orient_length _ _)

theorem cor_length_le (C : List Bool) (rev : Bool) : (cor C rev).length ≤ C.length :=
  (dec_length_le _ _).trans_eq (by simp)

end Sys2Proof.Machine
end

section
/-! ### Every response fits the response ports (10_state.md R16, 00_scope.md R3) -/

namespace Sys2Proof.Machine

variable {s : State}

/-- `RMAX` index slots hold the parity indices of every string within the capacity (00_scope.md R3). -/
theorem ppiIn_length_le_rmax {cap : Capacity} {m slots : Nat} (h : hasRoom cap m) (hs : cap.rmax = some slots) :
    (ppiIn m).length ≤ slots := by
  cases cap with
  | unbounded => simp [Capacity.rmax, Capacity.lw] at hs
  | bounded nmax =>
    obtain rfl : Nat.log2 nmax + 1 = slots := by simpa [Capacity.rmax, Capacity.lw] using hs
    rw [ppiIn_length]
    refine (parityCount_mono (h nmax rfl)).trans ?_
    unfold parityCount
    split <;> omega

/-- The parity indices of a string within the capacity are shown as they are. -/
theorem shows_respond_ppiIn {m : Nat} (h : hasRoom s.cap m) :
    (s.respond (.okIdx (ppiIn m))).shows (.okIdx (ppiIn m)) := by
  refine shows_respond (lenFits_of_hasRoom (hasRoom_mono h ?_)) (fun _ _ => Nat.zero_le _)
    (fun _ hs => ppiIn_length_le_rmax h hs) fun v hv => ?_
  · exact (ppiIn_length m).trans_le (parityCount_le m)
  · exact lenFits_of_hasRoom (hasRoom_mono h (lt_of_mem_ppiIn hv).le)

/-- A bit string within the capacity is shown as it is. -/
theorem shows_respond_okBits {v : List Bool} (h : hasRoom s.cap v.length) :
    (s.respond (.okBits v)).shows (.okBits v) :=
  shows_respond (lenFits_of_hasRoom h) h (fun _ _ => Nat.zero_le _) (fun _ hv => absurd hv List.not_mem_nil)

/-- The ports cut nothing off the response of an operation to a string of at most its length. -/
theorem shows_respond_responseOf {i : Instr} {syms : List Sym} (hlen : syms.length ≤ i.len) :
    (s.respond (responseOf s.cap i syms)).shows (responseOf s.cap i syms) := by
  cases i with
  | idxO rev len =>
    rw [responseOf]
    by_cases h : hasRoom s.cap (codewordLen len)
    · rw [idxOResponse_of_room h, ppiOut_eq_ppiIn]
      exact shows_respond_ppiIn h
    · rw [idxOResponse_of_over h]
      exact shows_respond_error s .capacity
  | idxI rev len =>
    rw [responseOf]
    by_cases h : hasRoom s.cap len
    · rw [idxIResponse_of_room h]
      exact shows_respond_ppiIn h
    · rw [idxIResponse_of_over h]
      exact shows_respond_error s .capacity
  | enc mode rev len =>
    rw [responseOf]
    by_cases h : hasRoom s.cap (codewordLen len)
    · rw [encResponse_of_room h]
      exact shows_respond_okBits (hasRoom_mono h (by simpa [Instr.len] using codewordLen_mono hlen))
    · rw [encResponse_of_over h]
      exact shows_respond_error s .capacity
  | dec mode rev len =>
    rw [responseOf]
    by_cases h : hasRoom s.cap len
    · rw [decResponse_of_room h]
      exact shows_respond_okBits (hasRoom_mono h ((dec_length_le _ _).trans (by simpa [Instr.len] using hlen)))
    · rw [decResponse_of_over h]
      exact shows_respond_error s .capacity
  | cor mode rev len =>
    rw [responseOf]
    by_cases h : hasRoom s.cap len
    · cases hv : invalidInput syms with
      | true =>
        rw [corResponse_of_invalid h hv]
        exact shows_respond_error s .invalidInput
      | false =>
        rw [corResponse_of_valid h hv]
        exact shows_respond_okBits (hasRoom_mono h ((cor_length_le _ _).trans (by simpa [Instr.len] using hlen)))
    · rw [corResponse_of_over h]
      exact shows_respond_error s .capacity

/-- The state that an operation leaves when it answers: the response to the operand string is on the ports. -/
theorem exec_next_eq_respond {i : Instr} {t : State} (h : exec i s = .next t) :
    t = s.respond (responseOf s.cap i (s.reqSym.take i.len)) := by
  rw [(exec_eq_next.mp h).2, responseOf_take]

/-- An operation that answers shows the response that is a function of the request (00_scope.md R4). -/
theorem exec_next_shows {i : Instr} {t : State} (h : exec i s = .next t) :
    t.shows (responseOf s.cap i (s.reqSym.take i.len)) := by
  rw [exec_next_eq_respond h]
  exact shows_respond_responseOf (List.length_take_le _ _)

/-- An operation whose operand string is on the ports answers. -/
theorem exec_answers {i : Instr} (h : s.holdsOperand i.len) : ∃ t, exec i s = .next t :=
  ⟨_, exec_eq_next.mpr ⟨(symbolsRead_le s.cap i).trans h, rfl⟩⟩

end Sys2Proof.Machine
end

section
/-! ### The block as a function of the request (00_scope.md R4) -/

namespace Sys2Proof.Machine

/-- Settles O38: the operation answers because it reads no more symbols than its operand string has, and it
shows its whole response because no response within the capacity is too wide for the ports. -/
theorem execIsAFunctionOfTheRequest : Obligations.ExecIsAFunctionOfTheRequest := by
  intro i s hop
  obtain ⟨t, ht⟩ := exec_answers hop
  exact ⟨t, ht, exec_next_shows ht⟩

end Sys2Proof.Machine
end

/-! Proofs of the statements of 10_state.md. -/

section
/-! ### A request on the ports is answered (10_state.md R15, 30_encoding.md R49) -/

namespace Sys2Proof.Machine

variable {s t : State} {cap : Capacity}

theorem decode_eq_ok {cmd : Cmd} {len : Nat} {i : Instr} :
    decode cap cmd len = .ok i ↔ cap.lenFits len = true ∧ i = decodeCmd cmd len := by
  unfold decode
  cases h : cap.lenFits len <;> simp [eq_comm]

theorem decodeCmd_len (cmd : Cmd) (len : Nat) : (decodeCmd cmd len).len = len := by
  unfold decodeCmd
  split
  · split <;> rfl
  all_goals rfl

theorem presentable_iff {r : Request} :
    r.presentable cap = true ↔ cap.lenFits r.len = true ∧ cap.symsFit r.symbolsNeeded r.sym = true := by
  rw [Request.presentable, Bool.and_eq_true]

theorem readCount_le {tooBig : Bool} {len n : Nat} (h : tooBig = false → len ≤ n) : readCount tooBig len ≤ n := by
  cases tooBig with
  | true => exact Nat.zero_le n
  | false => exact h rfl

/-- No operation reads beyond the `NMAX` elements of the symbol array (20_memory.md R29): a longer request answers `CAPACITY`. -/
theorem symbolsRead_le_nmax (nmax : Nat) (i : Instr) : symbolsRead (.bounded nmax) i ≤ nmax := by
  cases i with
  | idxO _ _ => exact Nat.zero_le nmax
  | idxI _ _ => exact Nat.zero_le nmax
  | enc _ _ len =>
    refine readCount_le fun h => ?_
    exact (Nat.le_add_right _ _).trans (overCapacityOut_eq_false.mp h nmax rfl)
  | dec _ _ len => exact readCount_le fun h => overCapacityIn_eq_false.mp h nmax rfl
  | cor _ _ len => exact readCount_le fun h => overCapacityIn_eq_false.mp h nmax rfl

/-- An operation reads no more symbols than its request needs: none for `IDX` (30_encoding.md R50). -/
theorem symbolsRead_le_symbolsNeeded (cap : Capacity) (r : Request) :
    symbolsRead cap (decodeCmd r.cmd r.len) ≤ r.symbolsNeeded := by
  have hle := symbolsRead_le cap (decodeCmd r.cmd r.len)
  rw [decodeCmd_len] at hle
  cases h1 : r.cmd.getLsbD 1 <;> cases h0 : r.cmd.getLsbD 0
  case false.false =>
    simp only [decodeCmd, h1, h0]
    split <;> exact Nat.zero_le _
  all_goals simpa [Request.symbolsNeeded, h1, h0] using hle

/-- The symbols that an operation reads are on the ports of every block that can be given its request. -/
theorem symbolsRead_le_length {r : Request} (h : r.presentable cap = true) :
    symbolsRead cap (decodeCmd r.cmd r.len) ≤ r.sym.length := by
  have hsyms := (presentable_iff.mp h).2
  cases cap with
  | bounded nmax =>
    rw [of_decide_eq_true hsyms]
    exact symbolsRead_le_nmax nmax _
  | unbounded => exact (symbolsRead_le_symbolsNeeded _ r).trans (of_decide_eq_true hsyms)

/-- What the block can do when it answers: it shows the response to the request on its ports, and writes nothing else. -/
theorem execPorts_next (h : execPorts s = .next t) :
    ∃ resp, requestResponse s.cap s.portRequest = some resp ∧ t = s.respond resp ∧ t.shows resp := by
  unfold execPorts at h
  cases hi : decode s.cap s.reqCmd s.reqLen with
  | error e =>
    cases e
    simp [hi] at h
  | ok i =>
    simp only [hi] at h
    have hlen : i.len = s.reqLen := by
      rw [(decode_eq_ok.mp hi).2, decodeCmd_len]
    refine ⟨responseOf s.cap i (s.reqSym.take i.len), ?_, exec_next_eq_respond h, exec_next_shows h⟩
    simp [requestResponse, State.portRequest, hi, hlen]

/-- A request that the ports can carry is answered. -/
theorem execPorts_answers (h : s.portRequest.presentable s.cap = true) : ∃ t, execPorts s = .next t := by
  have hi : decode s.cap s.reqCmd s.reqLen = .ok (decodeCmd s.reqCmd s.reqLen) :=
    decode_eq_ok.mpr ⟨(presentable_iff.mp h).1, rfl⟩
  have hread : symbolsRead s.cap (decodeCmd s.reqCmd s.reqLen) ≤ s.reqSym.length := symbolsRead_le_length h
  simpa only [execPorts, hi] using ⟨_, exec_eq_next.mpr ⟨hread, rfl⟩⟩

end Sys2Proof.Machine
end

section
/-! ### The block's move in each phase, and runs of several steps (10_state.md R17) -/

namespace Sys2Proof.Machine

variable {s t : State} {x : Txn} {rest : List HostMove}

/-- Phase 3: the block answers. -/
theorem blockMove_of_ready (h : s.ready) : blockMove s = execPorts s := by
  obtain ⟨y, hx, hd, hv⟩ := h
  simp [blockMove, hx, hd, hv]

/-- The block waits until the host has taken the response. -/
theorem blockMove_of_answered (hx : s.txn = some x) (hv : s.rspValid = true) (hq : s.reqValid = true) :
    blockMove s = .next s := by
  simp [blockMove, hx, hv, hq]

/-- Phase 4: the block takes its response back. -/
theorem blockMove_of_taken (hx : s.txn = some x) (hv : s.rspValid = true) (hq : s.reqValid = false) :
    blockMove s = .next s.goIdle := by
  simp [blockMove, hx, hv, hq]

/-- A hold is the block's move (log 6). -/
theorem step_of_hold (h : s.schedule = .hold :: rest) : step s = blockMove { s with schedule := rest } :=
  step_of_schedule_cons h

theorem runSteps_succ_of_next (n : Nat) (h : step s = .next t) : runSteps (n + 1) s = runSteps n t := by
  simp [runSteps, h]

@[simp] theorem runSteps_one (s : State) : runSteps 1 s = step s := by
  unfold runSteps
  cases step s <;> rfl

end Sys2Proof.Machine
end

section
/-! ### Reset (10_state.md R18) -/

namespace Sys2Proof.Machine

/-- Settles O45: the two reset values of R18, for the machine of every capacity. -/
theorem resetIsIdle : Obligations.ResetIsIdle :=
  ⟨resetFor_rspValid _, resetFor_txn _, fun cap => ⟨resetFor_rspValid cap, resetFor_txn cap⟩⟩

end Sys2Proof.Machine
end

section
/-! ### Nothing earlier changes a response (10_state.md R10) -/

namespace Sys2Proof.Machine

/-- Blocks of one capacity that write the same response show the same response, whatever their states hold. -/
theorem sameResponse_respond {s s' : State} (h : s'.cap = s.cap) (r : Response) :
    (s.respond r).sameResponse (s'.respond r) := by
  simp [State.sameResponse, h]

/-- Settles O54: both blocks answer in this step, and the response that each writes is a function of its capacity and of the
request on its ports. -/
theorem responsesDoNotRememberThePast : Obligations.ResponsesDoNotRememberThePast := by
  intro s s' t t' hready hready' hsch hsch' hcap hport hstep hstep'
  rw [step_of_schedule_nil hsch, blockMove_of_ready hready] at hstep
  rw [step_of_schedule_nil hsch', blockMove_of_ready hready'] at hstep'
  obtain ⟨r, hr, rfl, -⟩ := execPorts_next hstep
  obtain ⟨r', hr', rfl, -⟩ := execPorts_next hstep'
  obtain rfl : r = r' := by
    rw [hcap, hport, hr] at hr'
    exact Option.some.inj hr'
  exact sameResponse_respond hcap r

end Sys2Proof.Machine
end

section
/-! ### A response is held until it is taken (10_state.md R17 phase 4) -/

namespace Sys2Proof.Machine

variable {s s' : State}

/-- Once the response is presented, driving the request fields moves them and nothing else. -/
theorem hostDrive_of_rspValid {r : Request} (hv : s.rspValid = true) (h : hostDrive r s = .next s') :
    s' = { s with reqCmd := r.cmd, reqLen := r.len, reqSym := r.sym } := by
  obtain ⟨-, rfl⟩ := hostDrive_eq_next.mp h
  rw [disturbIf_of_rspValid hv]

/-- Settles O48: the block waits in its own move, and a drive moves the request fields only. -/
theorem responseIsHeldUntilTaken : Obligations.ResponseIsHeldUntilTaken := by
  intro s s' hv hq htxn hsch hstep
  obtain ⟨x, hx⟩ := Option.ne_none_iff_exists'.mp htxn
  obtain hsch | ⟨rest, hsch⟩ | ⟨r, rest, hsch⟩ := hsch
  · rw [step_of_schedule_nil hsch, blockMove_of_answered hx hv hq] at hstep
    obtain rfl : s = s' := Host.Outcome.next.inj hstep
    exact ⟨⟨rfl, rfl, rfl, rfl, rfl⟩, rfl, hq⟩
  · rw [step_of_hold hsch, blockMove_of_answered (s := { s with schedule := rest }) hx hv hq] at hstep
    obtain rfl : { s with schedule := rest } = s' := Host.Outcome.next.inj hstep
    exact ⟨⟨rfl, rfl, rfl, rfl, rfl⟩, rfl, hq⟩
  · rw [step_of_schedule_cons hsch, hostMove] at hstep
    obtain rfl := hostDrive_of_rspValid (s := { s with schedule := rest }) hv hstep
    exact ⟨⟨rfl, rfl, rfl, rfl, rfl⟩, rfl, hq⟩

end Sys2Proof.Machine
end

section
/-! ### A transaction, phase by phase (10_state.md R17) -/

namespace Sys2Proof.Machine

variable {s : State} {r : Request} {x : Txn} {rest : List HostMove}

/-- Phase 2: the host drives a request that the ports can carry, and the interface stays idle. -/
theorem step_drive_of_idle (hidle : s.idle) (hr : r.presentable s.cap = true) (hsch : s.schedule = .drive r :: rest) :
    ∃ t, step s = .next t ∧ t.idle ∧ t.portRequest = r ∧ t.cap = s.cap ∧ t.schedule = rest := by
  obtain ⟨hq, hv, htxn⟩ := hidle
  refine ⟨_, (step_of_schedule_cons hsch).trans (hostDrive_eq_next.mpr ⟨hr, rfl⟩), ⟨hq, hv, ?_⟩, rfl, rfl, rfl⟩
  exact disturbIf_eq_none.mpr htxn

/-- Phase 2: the host raises `req_valid`, and the block is about to answer the request on its ports. -/
theorem step_raise_of_idle (hidle : s.idle) (hsch : s.schedule = .raise :: rest) :
    ∃ t, step s = .next t ∧ t.ready ∧ t.portRequest = s.portRequest ∧ t.cap = s.cap ∧ t.schedule = rest := by
  obtain ⟨-, hv, htxn⟩ := hidle
  refine ⟨_, step_of_schedule_cons hsch, ⟨⟨s.portRequest, false⟩, ?_, rfl, hv⟩, rfl, rfl, rfl⟩
  exact congrArg State.txn (hostRaise_of_idle (s := { s with schedule := rest }) htxn)

/-- Phase 3: the host holds, and the block shows the response to the request on its ports. -/
theorem step_hold_of_ready (hready : s.ready) (hr : s.portRequest.presentable s.cap = true)
    (hsch : s.schedule = .hold :: rest) :
    ∃ t resp, step s = .next t ∧ requestResponse s.cap s.portRequest = some resp ∧ t.shows resp ∧
      t.txn = s.txn ∧ t.portRequest = s.portRequest ∧ t.cap = s.cap ∧ t.schedule = rest := by
  obtain ⟨t, ht⟩ := execPorts_answers (s := { s with schedule := rest }) hr
  obtain ⟨resp, hresp, rfl, hshows⟩ := execPorts_next ht
  refine ⟨_, resp, ?_, hresp, hshows, rfl, rfl, rfl, rfl⟩
  rw [step_of_hold hsch, blockMove_of_ready (s := { s with schedule := rest }) hready, ht]

/-- Phase 4: the host takes a presented response and lowers `req_valid`; the transaction stays as it is. -/
theorem step_lower_of_answered (hv : s.rspValid = true) (hsch : s.schedule = .lower :: rest) :
    ∃ t, step s = .next t ∧ t.txn = s.txn ∧ t.rspValid = true ∧ t.reqValid = false ∧ t.cap = s.cap ∧
      t.schedule = rest :=
  ⟨_, step_of_schedule_cons hsch, disturbIf_of_rspValid (s := { s with schedule := rest }) hv _, hv, rfl, rfl, rfl⟩

/-- Phase 4: the host holds, and the block makes the interface idle. -/
theorem step_hold_of_taken (hx : s.txn = some x) (hv : s.rspValid = true) (hq : s.reqValid = false)
    (hsch : s.schedule = .hold :: rest) :
    ∃ t, step s = .next t ∧ t.idle ∧ t.cap = s.cap ∧ t.schedule = rest :=
  ⟨_, (step_of_hold hsch).trans (blockMove_of_taken (s := { s with schedule := rest }) hx hv hq),
    ⟨hq, rfl, rfl⟩, rfl, rfl⟩

/-- Settles O47: the five moves of the handshake, one after the other. -/
theorem transactionCompletes : Obligations.TransactionCompletes := by
  intro s r rest hidle hr hsch
  obtain ⟨s1, h1, hidle1, hport1, hcap1, hsch1⟩ := step_drive_of_idle hidle hr hsch
  obtain ⟨s2, h2, hready, hport2, hcap2, hsch2⟩ := step_raise_of_idle hidle1 hsch1
  have hport : s2.portRequest = r := hport2.trans hport1
  have hcap : s2.cap = s.cap := hcap2.trans hcap1
  obtain ⟨s3, resp, h3, hresp, hshows, htxn3, hport3, hcap3, hsch3⟩ :=
    step_hold_of_ready hready (by rwa [hport, hcap]) hsch2
  have hv3 : s3.rspValid = true := hshows.1
  obtain ⟨s4, h4, htxn4, hv4, hq4, hcap4, hsch4⟩ := step_lower_of_answered hv3 hsch3
  obtain ⟨x, hx, -, -⟩ := hready
  obtain ⟨s5, h5, hidle5, hcap5, hsch5⟩ := step_hold_of_taken (htxn4.trans (htxn3.trans hx)) hv4 hq4 hsch4
  refine ⟨s3, s5, resp, ?_, ?_, hshows, hport3.trans hport, ?_, hidle5, ?_, hsch5⟩
  · rw [runSteps_succ_of_next 2 h1, runSteps_succ_of_next 1 h2, runSteps_one, h3]
  · rw [← hresp, hport, hcap]
  · rw [runSteps_succ_of_next 1 h4, runSteps_one, h5]
  · rw [hcap5, hcap4, hcap3, hcap]

end Sys2Proof.Machine
end

/-! Proofs of the statements of 20_memory.md. -/

section
/-! ### `ENC` and `DEC` read the `b` wires only (20_memory.md R43) -/

namespace Sys2Proof.Machine

variable {s s' t t' : State} {cap : Capacity} {rev : Bool} {len : Nat} {syms syms' : List Sym} {i : Instr}

/-- `ENC` sees of its operand string nothing but the `b` wires. -/
theorem encResponse_congr (h : syms'.map Sym.b = syms.map Sym.b) :
    encResponse cap rev len syms' = encResponse cap rev len syms := by
  have hbits : syms'.map bitof = syms.map bitof := h
  rw [encResponse, encResponse, hbits]

/-- `DEC` sees of its operand string nothing but the `b` wires. -/
theorem decResponse_congr (h : syms'.map Sym.b = syms.map Sym.b) :
    decResponse cap rev len syms' = decResponse cap rev len syms := by
  have hbits : syms'.map bitof = syms.map bitof := h
  rw [decResponse, decResponse, hbits]

theorem encResponse_st_ne_invalidInput : (encResponse cap rev len syms).st ≠ .invalidInput := by
  by_cases h : hasRoom cap (codewordLen len)
  · simp [encResponse_of_room h, Response.okBits]
  · simp [encResponse_of_over h, Response.error]

theorem decResponse_st_ne_invalidInput : (decResponse cap rev len syms).st ≠ .invalidInput := by
  by_cases h : hasRoom cap len
  · simp [decResponse_of_room h, Response.okBits]
  · simp [decResponse_of_over h, Response.error]

theorem code_eq_one_iff {st : Status} : st.code = 1#2 ↔ st = .invalidInput := by
  cases st <;> decide

/-- Two blocks of one capacity show the same response when the operation's response to their operand strings is the same. -/
theorem exec_sameResponse (hcap : s'.cap = s.cap) (h : exec i s = .next t) (h' : exec i s' = .next t')
    (hresp : responseOf s.cap i (s'.reqSym.take i.len) = responseOf s.cap i (s.reqSym.take i.len)) :
    t.sameResponse t' := by
  rw [exec_next_eq_respond h, exec_next_eq_respond h', hcap, hresp]
  exact sameResponse_respond hcap _

/-- An operation shows `INVALID_INPUT` only when its response to the operand string has that status. -/
theorem exec_rspSt_ne_one (h : exec i s = .next t)
    (hst : (responseOf s.cap i (s.reqSym.take i.len)).st ≠ .invalidInput) : t.rspSt ≠ 1#2 := by
  rw [exec_next_eq_respond h, respond_rspSt]
  exact mt code_eq_one_iff.mp hst

/-- Settles O19: the response of either operation is a function of the `b` wires, and its status is `OK` or `CAPACITY`. -/
theorem encAndDecReadTheBWireOnly : Obligations.EncAndDecReadTheBWireOnly := by
  intro mode rev len s s' t t' hcap hb
  constructor
  · intro h h'
    exact ⟨exec_sameResponse hcap h h' (encResponse_congr hb), exec_rspSt_ne_one h encResponse_st_ne_invalidInput⟩
  · intro h h'
    exact ⟨exec_sameResponse hcap h h' (decResponse_congr hb), exec_rspSt_ne_one h decResponse_st_ne_invalidInput⟩

end Sys2Proof.Machine
end

section
/-! ### The frame of the five operations (20_memory.md R30, R35) -/

namespace Sys2Proof.Machine

variable {s t : State} {cap : Capacity} {rev : Bool} {len : Nat} {syms : List Sym} {i : Instr}

/-- `IDX.O` has no payload of bits. -/
@[simp] theorem idxOResponse_bits : (idxOResponse cap len).bits = [] := by
  by_cases h : hasRoom cap (codewordLen len)
  · rw [idxOResponse_of_room h, Response.okIdx]
  · rw [idxOResponse_of_over h, Response.error]

/-- `IDX.I` has no payload of bits. -/
@[simp] theorem idxIResponse_bits : (idxIResponse cap len).bits = [] := by
  by_cases h : hasRoom cap len
  · rw [idxIResponse_of_room h, Response.okIdx]
  · rw [idxIResponse_of_over h, Response.error]

/-- `ENC` has no payload of indices. -/
@[simp] theorem encResponse_idx : (encResponse cap rev len syms).idx = [] := by
  by_cases h : hasRoom cap (codewordLen len)
  · rw [encResponse_of_room h, Response.okBits]
  · rw [encResponse_of_over h, Response.error]

/-- `DEC` has no payload of indices. -/
@[simp] theorem decResponse_idx : (decResponse cap rev len syms).idx = [] := by
  by_cases h : hasRoom cap len
  · rw [decResponse_of_room h, Response.okBits]
  · rw [decResponse_of_over h, Response.error]

/-- `COR` has no payload of indices. -/
@[simp] theorem corResponse_idx : (corResponse cap rev len syms).idx = [] := by
  by_cases h : hasRoom cap len
  · cases hv : invalidInput syms with
    | true => rw [corResponse_of_invalid h hv, Response.error]
    | false => rw [corResponse_of_valid h hv, Response.okBits]
  · rw [corResponse_of_over h, Response.error]

/-- An operation whose response has no payload of bits leaves every `rsp_bit` 0. -/
theorem exec_rspBitAt_of_bits_nil (h : exec i s = .next t)
    (hnil : (responseOf s.cap i (s.reqSym.take i.len)).bits = []) (j : Nat) : t.rspBitAt j = false := by
  obtain ⟨-, -, -, hbit, -⟩ := exec_next_shows h
  rw [hbit, hnil, List.getD_nil]

/-- An operation whose response has no payload of indices leaves every `rsp_idx` 0. -/
theorem exec_rspIdxAt_of_idx_nil (h : exec i s = .next t)
    (hnil : (responseOf s.cap i (s.reqSym.take i.len)).idx = []) (j : Nat) : t.rspIdxAt j = 0 := by
  obtain ⟨-, -, -, -, hidx⟩ := exec_next_shows h
  rw [hidx, hnil, List.getD_nil]

/-- An operation that answers writes the response ports and nothing else. -/
theorem exec_sameButResponse (h : exec i s = .next t) : s.sameButResponse t := by
  rw [exec_next_eq_respond h]
  exact sameButResponse_respond s _

/-- Settles O40: an operation that answers only puts its response on the response ports, and that response has no bits for `IDX`
and no indices for the others. -/
theorem operationsFrame : Obligations.OperationsFrame := by
  intro i s t h
  refine ⟨exec_sameButResponse h, (exec_next_shows h).1, fun j => ?_, ?_, ?_⟩
  · rw [exec_next_eq_respond h, respond_reqSym]
  · rintro rev len (rfl | rfl)
    · exact exec_rspBitAt_of_bits_nil h idxOResponse_bits
    · exact exec_rspBitAt_of_bits_nil h idxIResponse_bits
  · rintro mode rev len (rfl | rfl | rfl)
    · exact exec_rspIdxAt_of_idx_nil h encResponse_idx
    · exact exec_rspIdxAt_of_idx_nil h decResponse_idx
    · exact exec_rspIdxAt_of_idx_nil h corResponse_idx

end Sys2Proof.Machine
end

section
/-! ### The block's moves leave the request ports alone (20_memory.md R30) -/

namespace Sys2Proof.Machine

variable {s t : State}

/-- The block's move changes neither the host's side of the interface nor the capacity, in any phase. -/
theorem blockMove_frame (h : blockMove s = .next t) :
    t.portRequest = s.portRequest ∧ t.reqValid = s.reqValid ∧ t.cap = s.cap ∧ t.schedule = s.schedule := by
  obtain ⟨-, rfl⟩ | ⟨_, -, -, -, rfl⟩ | ⟨_, -, -, -, rfl⟩ | ⟨_, -, -, -, rfl⟩ | ⟨_, _, -, -, -, -, hexec⟩ :=
    blockMove_cases h
  case inr.inr.inr.inr =>
    rw [exec_next_eq_respond hexec]
    exact ⟨rfl, rfl, rfl, rfl⟩
  all_goals exact ⟨rfl, rfl, rfl, rfl⟩

/-- While the host makes no move of its own, a step is the block's move, after any hold is taken from the pending moves
(log 6). -/
theorem step_of_host_still (h : s.schedule = [] ∨ ∃ rest, s.schedule = .hold :: rest) :
    step s = blockMove { s with schedule := s.schedule.tail } := by
  obtain h | ⟨rest, h⟩ := h
  · rw [step_of_schedule_nil h, h, List.tail_nil, ← h]
  · rw [step_of_hold h, h, List.tail_cons]

/-- Settles O53: the step is the block's move on the state without the hold, and the frame of that move is the claim. -/
theorem blockLeavesRequestPorts : Obligations.BlockLeavesRequestPorts := by
  intro s t hsch hstep
  rw [step_of_host_still hsch] at hstep
  exact blockMove_frame hstep

end Sys2Proof.Machine
end

/-! Proofs of the statements of 30_encoding.md. -/

section
/-! ### Ignored fields (30_encoding.md R50) -/

namespace Sys2Proof.Machine

variable {s s' t t' : State} {i : Instr} {mode mode' rev rev' : Bool} {len : Nat}

theorem exec_idxO_ignores_rev : exec (.idxO rev' len) s = exec (.idxO rev len) s := rfl

theorem exec_idxI_ignores_rev : exec (.idxI rev' len) s = exec (.idxI rev len) s := rfl

theorem exec_enc_ignores_mode : exec (.enc mode' rev len) s = exec (.enc mode rev len) s := rfl

theorem exec_dec_ignores_mode : exec (.dec mode' rev len) s = exec (.dec mode rev len) s := rfl

theorem exec_cor_ignores_mode : exec (.cor mode' rev len) s = exec (.cor mode rev len) s := rfl

/-- `sym[j]` for `j >= len` is ignored: request strings that agree below the length give the same response. -/
theorem exec_sameResponse_of_take (hcap : s'.cap = s.cap) (hsym : s'.reqSym.take i.len = s.reqSym.take i.len)
    (h : exec i s = .next t) (h' : exec i s' = .next t') : t.sameResponse t' :=
  exec_sameResponse hcap h h' (congrArg (responseOf s.cap i) hsym)

/-- Settles O4: the ignored command bit can be set to the other request's, and then one operation runs on two strings: `IDX`
has the same response to every string, the others to strings that agree below `len`. -/
theorem ignoredFieldsDoNotMatter : Obligations.IgnoredFieldsDoNotMatter := by
  constructor
  · intro rev rev' len s s' t t' hcap
    rw [exec_idxO_ignores_rev (rev := rev) (rev' := rev'), exec_idxI_ignores_rev (rev := rev) (rev' := rev')]
    exact ⟨fun h h' => exec_sameResponse hcap h h' rfl, fun h h' => exec_sameResponse hcap h h' rfl⟩
  · intro mode mode' rev len s s' t t' hcap hsym
    rw [exec_enc_ignores_mode (mode := mode) (mode' := mode'), exec_dec_ignores_mode (mode := mode) (mode' := mode'),
      exec_cor_ignores_mode (mode := mode) (mode' := mode')]
    exact ⟨exec_sameResponse_of_take hcap hsym, exec_sameResponse_of_take hcap hsym,
      exec_sameResponse_of_take hcap hsym⟩

end Sys2Proof.Machine
end

section
/-! ### No request stops the block (30_encoding.md R51, 60_exceptions.md R145) -/

namespace Sys2Proof.Machine

variable {s : State} {x : Txn} {r : Request}

/-- Phase 1: the idle block waits. -/
theorem blockMove_of_no_txn (hx : s.txn = none) : blockMove s = .next s := by
  simp [blockMove, hx]

/-- Phase 3 of a disturbed transaction: a free response is presented (70_reset_and_hazards.md R159). -/
theorem blockMove_of_disturbed (hx : s.txn = some x) (hv : s.rspValid = false) (hd : x.disturbed = true) :
    blockMove s = .next s.respondFree := by
  simp [blockMove, hx, hv, hd]

/-- While the request ports hold values of their widths, the block has a move in every phase. -/
theorem blockMove_answers (h : s.portRequest.presentable s.cap = true) : ∃ t, blockMove s = .next t := by
  cases hx : s.txn with
  | none => exact ⟨_, blockMove_of_no_txn hx⟩
  | some x =>
    cases hv : s.rspValid with
    | true =>
      cases hq : s.reqValid with
      | true => exact ⟨_, blockMove_of_answered hx hv hq⟩
      | false => exact ⟨_, blockMove_of_taken hx hv hq⟩
    | false =>
      cases hd : x.disturbed with
      | true => exact ⟨_, blockMove_of_disturbed hx hv hd⟩
      | false =>
        rw [blockMove_of_ready ⟨x, hx, hd, hv⟩]
        exact execPorts_answers h

/-- Values that no port carries cannot be driven (log 9). -/
theorem hostDrive_of_not_presentable (h : r.presentable s.cap = false) : hostDrive r s = .refused .unpresentable := by
  simp [hostDrive, h]

/-- Settles O52: of the invariant only the widths of the request ports matter; with them the block's own move answers, and of
the host's moves only a drive can be refused. -/
theorem blockNeverStops : Obligations.BlockNeverStops := by
  intro s hinv
  cases hsch : s.schedule with
  | nil =>
    rw [step_of_schedule_nil hsch]
    exact .inl (blockMove_answers hinv.reqFits)
  | cons m rest =>
    rw [step_of_schedule_cons hsch]
    cases m with
    | hold => exact .inl (blockMove_answers (s := { s with schedule := rest }) hinv.reqFits)
    | drive r =>
      cases hr : r.presentable s.cap with
      | true => exact .inl ⟨_, hostDrive_eq_next.mpr ⟨hr, rfl⟩⟩
      | false => exact .inr ⟨hostDrive_of_not_presentable hr, r, rest, rfl, hr⟩
    | raise => exact .inl ⟨_, rfl⟩
    | lower => exact .inl ⟨_, rfl⟩
    | reset => exact .inl ⟨_, rfl⟩

end Sys2Proof.Machine
end

section
/-! ### A step runs the decoded operation (30_encoding.md R46) -/

namespace Sys2Proof.Machine

theorem execPorts_of_decode {s : State} {i : Instr} (h : decode s.cap s.reqCmd s.reqLen = .ok i) :
    execPorts s = exec i s := by
  simp [execPorts, h]

/-- Settles O41: the step is the block's move (log 6), and the block that is about to answer runs the operation on its ports
(log 16). -/
theorem stepRunsDecodedOperation : Obligations.StepRunsDecodedOperation := by
  intro s i hready hi
  constructor
  · intro hsch
    rw [step_of_schedule_nil hsch, blockMove_of_ready hready, execPorts_of_decode hi]
  · intro rest hsch
    rw [step_of_hold hsch, blockMove_of_ready (s := { s with schedule := rest }) hready,
      execPorts_of_decode (s := { s with schedule := rest }) hi]

end Sys2Proof.Machine
end

/-! Proofs of the statements of 40_position_arithmetic.md. -/

section
/-! ### Counting the 1 bits (40_position_arithmetic.md R60, R61) -/

namespace Sys2Proof.Machine

/-- The last bit, and the rest, for 0 too. -/
theorem popcount_eq_mod_two_add (p : Nat) : popcount p = p % 2 + popcount (p / 2) := by
  rcases Nat.eq_zero_or_pos p with rfl | hp
  · rfl
  · exact popcount_step hp.ne'

/-- The number of 1 bits is the count of the set bit indices, over any range that reaches past the highest one. -/
theorem popcount_eq_countP_testBit {p n : Nat} (h : p < 2 ^ n) : popcount p = (List.range n).countP p.testBit := by
  induction n generalizing p with
  | zero =>
    obtain rfl : p = 0 := by simpa using h
    simp
  | succ n ih =>
    have hhalf : popcount (p / 2) = (List.range n).countP (p / 2).testBit := ih (by rw [pow_succ] at h; omega)
    have hshift : p.testBit ∘ Nat.succ = (p / 2).testBit := funext fun i => Nat.testBit_succ p i
    have hlow : p % 2 = if p.testBit 0 then 1 else 0 := by
      simp only [Nat.testBit_zero, decide_eq_true_eq]
      split <;> omega
    rw [popcount_eq_mod_two_add, List.range_succ_eq_map, List.countP_cons, List.countP_map, hshift, hhalf, ← hlow,
      Nat.add_comm]

/-- Settles O5: a number has no bit at or above the index that is its own value, so the range `0..p-1` holds every set bit. -/
theorem parityPositionsArePowersOfTwo : Obligations.ParityPositionsArePowersOfTwo := by
  refine ⟨fun p => ?_, fun p _ => beq_iff_eq, fun p _ => ispar_iff⟩
  rw [← List.countP_eq_length_filter]
  exact popcount_eq_countP_testBit Nat.lt_two_pow_self

end Sys2Proof.Machine
end

section
/-! ### The smallest number of parity bits (40_position_arithmetic.md R68) -/

namespace Sys2Proof.Machine

/-- The inequality of R68 stays true when `r` grows. -/
theorem add_add_one_le_two_pow_of_le {k r t : Nat} (h : k + r + 1 ≤ 2 ^ r) (hrt : r ≤ t) : k + t + 1 ≤ 2 ^ t := by
  induction t, hrt using Nat.le_induction with
  | base => exact h
  | succ t _ ih =>
    rw [pow_succ]
    omega

/-- `r(k)` is the threshold of the inequality of R68. -/
theorem parityBits_le_iff {k r : Nat} : parityBits k ≤ r ↔ k + r + 1 ≤ 2 ^ r :=
  ⟨add_add_one_le_two_pow_of_le (parityBits_spec k).1, parityBits_le_of⟩

/-- The data lengths of a positive number of parity bits: `r + 1` satisfies the inequality of R68 and `r` does not. -/
theorem parityBits_eq_succ_iff {k r : Nat} :
    parityBits k = r + 1 ↔ 2 ^ r < k + (r + 1) ∧ k + (r + 1) + 1 ≤ 2 ^ (r + 1) := by
  have hle : parityBits k ≤ r + 1 ↔ k + (r + 1) + 1 ≤ 2 ^ (r + 1) := parityBits_le_iff
  have hlt : parityBits k ≤ r ↔ k + r + 1 ≤ 2 ^ r := parityBits_le_iff
  omega

/-- One or more data bits need a parity bit. -/
theorem parityBits_pos {k : Nat} (h : 1 ≤ k) : 0 < parityBits k := by
  rw [← not_le, parityBits_le_iff]
  omega

/-- For `k >= 1` one parity bit less does not satisfy the inequality of R68. -/
theorem two_pow_parityBits_sub_one_lt {k : Nat} (h : 1 ≤ k) : 2 ^ (parityBits k - 1) < k + parityBits k := by
  obtain ⟨r, hr⟩ := Nat.exists_eq_add_one.mpr (parityBits_pos h)
  rw [hr, Nat.add_sub_cancel]
  exact (parityBits_eq_succ_iff.mp hr).1

/-- Settles O8: the search finds the smallest `r`, and each row of the table is the range of data lengths of its `r`. -/
theorem parityBitsIsSmallest : Obligations.ParityBitsIsSmallest := by
  refine ⟨parityBits_spec, fun _ => two_pow_parityBits_sub_one_lt, rfl, parityBits_eq_succ_iff.mpr (by decide),
    ?_, ?_, ?_, ?_, ?_, ?_⟩
  all_goals
    intro k hlo hhi
    exact parityBits_eq_succ_iff.mpr (by omega)

end Sys2Proof.Machine
end

/-! Proofs of the statements of 41_parity_position_indexer.md. -/

section
/-! ### The walk finds the smallest number of parity positions (41_parity_position_indexer.md R79) -/

namespace Sys2Proof.Machine

/-- Settles O11: the walk finds `r(k)` positions, and `r(k)` is the smallest integer that satisfies the inequality. -/
theorem indexerFindsSmallestParityCount : Obligations.IndexerFindsSmallestParityCount := by
  intro k
  rw [ppiOut_length]
  obtain ⟨hle, hmin⟩ := parityBits_spec k
  exact ⟨hle, hmin, two_pow_parityBits_sub_one_lt⟩

end Sys2Proof.Machine
end

section
/-! ### The answers of the indexer (41_parity_position_indexer.md R76, R77) -/

namespace Sys2Proof.Machine

variable {s t : State} {i : Instr} {m : Nat}

/-- The parity indices of a string of `m` positions are `2^t - 1` for `t < c(m)`, in this order. -/
theorem ppiIn_eq_map (m : Nat) : ppiIn m = (List.range (parityCount m)).map (fun i => 2 ^ i - 1) := by
  rw [ppiIn, positions_filter_ispar, List.map_map]
  rfl

theorem ppiIn_getD (m j : Nat) : (ppiIn m).getD j 0 = if j < parityCount m then 2 ^ j - 1 else 0 := by
  rw [ppiIn_eq_map]
  by_cases h : j < parityCount m <;> simp [List.getD_eq_getElem?_getD, h]

/-- A response of parity indices, port by port. -/
theorem ports_of_shows_ppiIn (h : t.shows (.okIdx (ppiIn m))) :
    t.rspValid = true ∧ t.rspSt = 0#2 ∧ t.rspLen = parityCount m ∧
      (∀ j, t.rspIdxAt j = if j < parityCount m then 2 ^ j - 1 else 0) ∧ ∀ j, t.rspBitAt j = false := by
  obtain ⟨hvalid, hst, hlen, hbit, hidx⟩ := h
  exact ⟨hvalid, hst, hlen.trans (ppiIn_length m), fun j => (hidx j).trans (ppiIn_getD m j), hbit⟩

/-- An operation whose symbols are on the ports answers, shows its response, and leaves the rest alone. -/
theorem exec_shows_of_symbolsRead_le (h : symbolsRead s.cap i ≤ s.reqSym.length) :
    ∃ t, exec i s = .next t ∧ t.shows (responseOf s.cap i (s.reqSym.take i.len)) ∧ s.sameButResponse t := by
  have hexec := exec_eq_next.mpr ⟨h, rfl⟩
  exact ⟨_, hexec, exec_next_shows hexec, exec_sameButResponse hexec⟩

/-- `IDX.I` reads no symbol, so that it answers in every state. -/
theorem exec_idxI_shows (rev : Bool) (m : Nat) (s : State) :
    ∃ t, exec (.idxI rev m) s = .next t ∧ t.shows (idxIResponse s.cap m) ∧ s.sameButResponse t :=
  exec_shows_of_symbolsRead_le (Nat.zero_le _)

/-- `IDX.O` reads no symbol, so that it answers in every state. -/
theorem exec_idxO_shows (rev : Bool) (k : Nat) (s : State) :
    ∃ t, exec (.idxO rev k) s = .next t ∧ t.shows (idxOResponse s.cap k) ∧ s.sameButResponse t :=
  exec_shows_of_symbolsRead_le (Nat.zero_le _)

theorem decodeCmd_commandWord_idxI (rev : Bool) (len : Nat) :
    decodeCmd (commandWord true rev 0b00#2) len = .idxI rev len := by
  cases rev <;> rfl

theorem decodeCmd_commandWord_idxO (rev : Bool) (len : Nat) :
    decodeCmd (commandWord false rev 0b00#2) len = .idxO rev len := by
  cases rev <;> rfl

/-- Settles O13: the response is `ppi_in(m)` exactly when `m` is within the capacity, and `CAPACITY` otherwise. -/
theorem idxInAnswers : Obligations.IdxInAnswers := by
  refine ⟨decodeCmd_commandWord_idxI, fun rev m s => ?_⟩
  obtain ⟨t, hexec, hshows, hframe⟩ := exec_idxI_shows rev m s
  constructor
  · intro hroom
    rw [idxIResponse_of_room hroom] at hshows
    obtain ⟨hvalid, hst, hlen, hidx, hbit⟩ := ports_of_shows_ppiIn hshows
    exact ⟨t, hexec, hvalid, hst, hlen, hidx, hbit, hframe⟩
  · intro hover
    rw [idxIResponse_of_over hover] at hshows
    exact ⟨t, hexec, hshows, hframe⟩

/-- Settles O14: the response is `ppi_out(k)` exactly when the codeword is within the capacity, and `CAPACITY` otherwise;
`ppi_out(k)` is `ppi_in` of the codeword's length, whose parity positions number `r(k)`. -/
theorem idxOutAnswers : Obligations.IdxOutAnswers := by
  refine ⟨decodeCmd_commandWord_idxO, fun rev k s => ?_⟩
  obtain ⟨t, hexec, hshows, hframe⟩ := exec_idxO_shows rev k s
  constructor
  · intro hroom
    rw [idxOResponse_of_room hroom, ppiOut_eq_ppiIn] at hshows
    have hports := ports_of_shows_ppiIn hshows
    rw [parityCount_codewordLen] at hports
    obtain ⟨hvalid, hst, hlen, hidx, hbit⟩ := hports
    exact ⟨t, hexec, hvalid, hst, hlen, hidx, hbit, hframe⟩
  · intro hover
    rw [idxOResponse_of_over hover] at hshows
    exact ⟨t, hexec, hshows, hframe⟩

end Sys2Proof.Machine
end

/-! Proofs of the statements of 42_encoder.md. -/

section
/-! ### ENC and DEC answer within the capacity (42_encoder.md R90, 43_decoder.md R105) -/

namespace Sys2Proof.Machine

variable {s : State} {d : List Bool} {k m : Nat}

/-- The string read from the ports that present it is the string itself. -/
theorem map_bitof_take_of_presents (h : s.presents d) : (s.reqSym.take d.length).map bitof = d := by
  rw [h, map_bitof_ofBit]

/-- An operation whose operand string is on the ports answers, shows its response, and leaves the rest alone. -/
theorem exec_shows_of_holdsOperand {i : Instr} (h : s.holdsOperand i.len) :
    ∃ t, exec i s = .next t ∧ t.shows (responseOf s.cap i (s.reqSym.take i.len)) ∧ s.sameButResponse t :=
  exec_shows_of_symbolsRead_le ((symbolsRead_le s.cap i).trans h)

/-- `ENC` answers with the codeword of its operand string (R90). -/
theorem exec_enc_shows (mode rev : Bool) (hroom : hasRoom s.cap (codewordLen k)) (hop : s.holdsOperand k) :
    ∃ t, exec (.enc mode rev k) s = .next t ∧ t.shows (.okBits (enc ((s.reqSym.take k).map bitof) rev)) ∧
      s.sameButResponse t := by
  rw [← encResponse_of_room hroom]
  exact exec_shows_of_holdsOperand (i := .enc mode rev k) hop

/-- `DEC` answers with the decoded operand string (43_decoder.md R105). -/
theorem exec_dec_shows (mode rev : Bool) (hroom : hasRoom s.cap m) (hop : s.holdsOperand m) :
    ∃ t, exec (.dec mode rev m) s = .next t ∧ t.shows (.okBits (dec ((s.reqSym.take m).map bitof) rev)) ∧
      s.sameButResponse t := by
  rw [← decResponse_of_room hroom]
  exact exec_shows_of_holdsOperand (i := .dec mode rev m) hop

/-- Settles O15: the response of `ENC` within the capacity is the codeword of the `b` wires, and a codeword of `k` bits has
`n(k)` bits. -/
theorem encAnswers : Obligations.EncAnswers := by
  intro mode rev k s hroom hop
  obtain ⟨t, hexec, hshows, hframe⟩ := exec_enc_shows mode rev hroom hop
  have hlen : (enc ((s.reqSym.take k).map bitof) rev).length = codewordLen k := by
    rw [enc_length, List.length_map, List.length_take, Nat.min_eq_left hop]
  rw [Response.okBits, hlen] at hshows
  exact ⟨t, hexec, hshows, hframe⟩

end Sys2Proof.Machine
end

section
/-! ### Stripping keeps the data positions (40_position_arithmetic.md R66, 43_decoder.md R106) -/

namespace Sys2Proof.Machine

/-- The parity indices of a string are the indices of its parity positions (R27). -/
theorem contains_ppiIn {j m : Nat} (h : j < m) : (ppiIn m).contains j = ispar (j + 1) := by
  rw [Bool.eq_iff_iff, List.contains_iff_mem, ppiIn, List.mem_map]
  constructor
  · rintro ⟨q, hq, rfl⟩
    rw [List.mem_filter, mem_positions] at hq
    obtain ⟨⟨h1, -⟩, hpar⟩ := hq
    rwa [Nat.sub_add_cancel h1]
  · intro hpar
    exact ⟨j + 1, List.mem_filter.mpr ⟨mem_positions.mpr ⟨by omega, h⟩, hpar⟩, rfl⟩

/-- The data positions are one more than the indices outside the parity indices. -/
theorem dataPositions_eq_map (m : Nat) :
    dataPositions m = ((List.range m).filter fun j => !(ppiIn m).contains j).map (· + 1) := by
  rw [dataPositions, positions, List.filter_map]
  congr 1
  refine List.filter_congr fun j hj => ?_
  rw [contains_ppiIn (List.mem_range.mp hj)]
  rfl

/-- The positions that are not among the `c(m)` parity positions (R66). -/
theorem dataPositions_length (m : Nat) : (dataPositions m).length = m - parityCount m := by
  have hpar : ((positions m).filter ispar).length = parityCount m := by simp [positions_filter_ispar]
  have hsplit := List.length_eq_length_filter_add (l := positions m) ispar
  rw [positions_length, hpar] at hsplit
  rw [dataPositions]
  omega

theorem dataPositions_length_codewordLen (k : Nat) : (dataPositions (codewordLen k)).length = k := by
  rw [dataPositions_length, parityCount_codewordLen, codewordLen, Nat.add_sub_cancel]

/-- The codeword of `k` bits has `k` indices outside its parity indices. -/
theorem length_filter_not_contains_ppiIn (k : Nat) :
    ((List.range (codewordLen k)).filter fun j => !(ppiIn (codewordLen k)).contains j).length = k := by
  have hlen := dataPositions_length_codewordLen k
  rwa [dataPositions_eq_map, List.length_map] at hlen

/-- The bits of a string with their indices, read by position. -/
theorem zipIdx_eq_map_bitAt (L : List Bool) : L.zipIdx = (List.range L.length).map fun j => (bitAt L (j + 1), j) := by
  refine List.ext_getElem (by simp) fun j hj _ => ?_
  rw [List.length_zipIdx] at hj
  simp [bitAt, hj]

/-- Stripping the parity indices leaves the bits at the data positions, in order (43_decoder.md R106). -/
theorem strip_ppiIn (L : List Bool) : strip (ppiIn L.length) L = (dataPositions L.length).map (bitAt L) := by
  rw [strip, zipIdx_eq_map_bitAt, dataPositions_eq_map, List.filter_map, List.map_map, List.map_map]
  rfl

end Sys2Proof.Machine
end

section
/-! ### The skeleton (42_encoder.md R92) -/

namespace Sys2Proof.Machine

/-- Stripping the placeholders from a skeleton gives the data back, when there is one data bit for every other index. -/
theorem strip_placeFrom {P : List Nat} {count j : Nat} {data : List Bool}
    (h : data.length = (List.range' j count).countP fun v => !P.contains v) :
    (((placeFrom P count j data).zipIdx j).filter fun e => !P.contains e.2).map Prod.fst = data := by
  induction count generalizing j data with
  | zero => exact (List.length_eq_zero_iff.mp h).symm
  | succ count ih =>
    rw [List.range'_succ, List.countP_cons] at h
    by_cases hP : j ∈ P
    · have hrest := ih (j := j + 1) (data := data) (by simpa [hP] using h)
      simpa [placeFrom, hP] using hrest
    · cases data with
      | nil => simp [hP] at h
      | cons b data =>
        have hrest := ih (j := j + 1) (data := data) (by simpa [hP] using h)
        simpa [placeFrom, hP] using hrest

/-- The data positions of the skeleton hold the data, in the order in which it is consumed (R92). -/
theorem map_bitAt_place (d : List Bool) (rev : Bool) :
    (dataPositions (codewordLen d.length)).map (bitAt (place d rev (ppiOut d.length) (codewordLen d.length))) =
      orient rev d := by
  have hlen : (place d rev (ppiOut d.length) (codewordLen d.length)).length = codewordLen d.length :=
    placeFrom_length _ _ _ _
  have hstrip := strip_ppiIn (place d rev (ppiOut d.length) (codewordLen d.length))
  rw [hlen] at hstrip
  rw [← hstrip, ppiOut_eq_ppiIn]
  refine strip_placeFrom ?_
  rw [orient_length, ← List.range_eq_range', List.countP_eq_length_filter, length_filter_not_contains_ppiIn]

end Sys2Proof.Machine
end

section
/-! ### The parity values (42_encoder.md R93, 40_position_arithmetic.md R64) -/

namespace Sys2Proof.Machine

variable {W V : List Bool} {i n q r : Nat}

theorem bitAt_set_of_ne {j : Nat} {b : Bool} (hq : 1 ≤ q) (hne : q ≠ j + 1) : bitAt (W.set j b) q = bitAt W q := by
  rw [bitAt, bitAt, List.getD_eq_getElem?_getD, List.getD_eq_getElem?_getD, List.getElem?_set_ne (by omega)]

/-- No parity position but its own is covered by a parity bit (40_position_arithmetic.md R64 (a)). -/
theorem ispar_eq_false_of_covers (hc : covers i q = true) (hne : q ≠ 2 ^ i) : ispar q = false := by
  rw [← Bool.not_eq_true, ispar_iff]
  rintro ⟨j, rfl⟩
  rw [covers_eq_testBit, Nat.testBit_two_pow, decide_eq_true_eq] at hc
  exact hne (by rw [hc])

/-- A parity value depends on the data positions alone (40_position_arithmetic.md R64). -/
theorem pbit_congr (h : ∀ q, 1 ≤ q → q ≤ n → ispar q = false → bitAt W q = bitAt V q) : pbit W i n = pbit V i n := by
  unfold pbit
  congr 1
  refine List.map_congr_left fun q hq => ?_
  rw [List.mem_filter, mem_cover, bne_iff_ne] at hq
  obtain ⟨⟨⟨h1, hn⟩, hc⟩, hne⟩ := hq
  exact h q h1 hn (ispar_eq_false_of_covers hc hne)

@[simp] theorem writeParity_zero (W : List Bool) (n : Nat) : writeParity W 0 n = W := rfl

theorem writeParity_succ (W : List Bool) (r n : Nat) :
    writeParity W (r + 1) n = (writeParity W r n).set (2 ^ r - 1) (pbit (writeParity W r n) r n) := by
  simp [writeParity, List.range_succ]

/-- Writing the parity values leaves the data positions alone. -/
theorem bitAt_writeParity_of_data (hq : 1 ≤ q) (hdata : ispar q = false) :
    bitAt (writeParity W r n) q = bitAt W q := by
  induction r with
  | zero => rfl
  | succ r ih =>
    have hne : q ≠ 2 ^ r - 1 + 1 := by
      rw [Nat.sub_add_cancel Nat.one_le_two_pow]
      rintro rfl
      simp [ispar_iff.mpr ⟨r, rfl⟩] at hdata
    rw [writeParity_succ, bitAt_set_of_ne hq hne, ih]

theorem pbit_writeParity : pbit (writeParity W r n) i n = pbit W i n :=
  pbit_congr fun _ hq _ hdata => bitAt_writeParity_of_data hq hdata

/-- Each parity position of the string holds its parity value once it is written, and keeps it. -/
theorem bitAt_writeParity_two_pow (hi : i < r) (hlen : 2 ^ i ≤ W.length) :
    bitAt (writeParity W r n) (2 ^ i) = pbit W i n := by
  have hpos : 1 ≤ 2 ^ i := Nat.one_le_two_pow
  induction r with
  | zero => omega
  | succ r ih =>
    rw [writeParity_succ]
    rcases Nat.lt_succ_iff_lt_or_eq.mp hi with hlt | rfl
    · have hpow : 2 ^ i < 2 ^ r := Nat.pow_lt_pow_right (by decide) hlt
      rw [bitAt_set_of_ne hpos (by omega), ih hlt]
    · rw [bitAt_set (by rw [writeParity_length]; omega) hpos, if_pos (by omega), pbit_writeParity]

end Sys2Proof.Machine
end

section
/-! ### The codeword (42_encoder.md R92, R93, R94, R97) -/

namespace Sys2Proof.Machine

/-- The codeword in its logical form: the skeleton with the parity values written in (R90). -/
theorem orient_enc (d : List Bool) (rev : Bool) :
    orient rev (enc d rev) =
      writeParity (place d rev (ppiOut d.length) (codewordLen d.length)) (parityBits d.length) (codewordLen d.length) := by
  simp [enc, codewordLen]

/-- The data positions of the codeword hold the data, turned round when reversed (R92, R97). -/
theorem map_bitAt_enc (d : List Bool) (rev : Bool) :
    (dataPositions (codewordLen d.length)).map (bitAt (orient rev (enc d rev))) = orient rev d := by
  rw [orient_enc, ← map_bitAt_place d rev]
  refine List.map_congr_left fun q hq => ?_
  obtain ⟨⟨h1, -⟩, hdata⟩ := mem_dataPositions.mp hq
  exact bitAt_writeParity_of_data h1 hdata

/-- The parity positions of the codeword hold the parity values of the codeword itself (R93). -/
theorem bitAt_enc_two_pow {d : List Bool} {i : Nat} (rev : Bool) (hi : i < parityBits d.length) :
    bitAt (orient rev (enc d rev)) (2 ^ i) = pbit (orient rev (enc d rev)) i (codewordLen d.length) := by
  rw [orient_enc, pbit_writeParity]
  refine bitAt_writeParity_two_pow hi ?_
  rw [← parityCount_codewordLen, lt_parityCount] at hi
  exact hi.trans_eq (placeFrom_length _ _ _ _).symm

/-- Character `t` of a string that is read from its right end when `rev`. -/
theorem orient_getD {d : List Bool} {t : Nat} (rev : Bool) (h : t < d.length) :
    (orient rev d).getD t false = d.getD (if rev then d.length - 1 - t else t) false := by
  cases rev with
  | false => rfl
  | true => simp [List.getD_eq_getElem?_getD, List.getElem?_reverse h]

/-- Settles O16: the `t`-th data position holds the `t`-th character of the data in its logical order, and the parity values
written are those of the finished codeword, because they depend on the data positions alone. -/
theorem encodedCodeword : Obligations.EncodedCodeword := by
  refine fun d rev => ⟨enc_length d rev, fun t ht => ?_, fun i hi => bitAt_enc_two_pow rev hi⟩
  have hpos : t < (dataPositions (codewordLen d.length)).length := ht.trans_eq (dataPositions_length_codewordLen _).symm
  rw [← orient_getD rev ht, ← map_bitAt_enc d rev]
  simp [List.getD_eq_getElem?_getD, hpos]

end Sys2Proof.Machine
end

section
/-! ### Corner cases of the encoder (42_encoder.md R90) -/

namespace Sys2Proof.Machine

@[simp] theorem orient_replicate (rev : Bool) (k : Nat) (b : Bool) :
    orient rev (List.replicate k b) = List.replicate k b := by
  cases rev <;> simp

theorem placeFrom_replicate_false (P : List Nat) (count j k : Nat) :
    placeFrom P count j (List.replicate k false) = List.replicate count false := by
  induction count generalizing j k with
  | zero => rfl
  | succ count ih =>
    have hhead : (List.replicate k false).headD false = false := by cases k <;> rfl
    simp only [placeFrom, placeholder, hhead, List.tail_replicate, ih, ite_self, List.replicate_succ]

theorem parity_map_of_forall_eq_false {f : Nat → Bool} (l : List Nat) (h : ∀ q, f q = false) :
    parity (l.map f) = false := by
  induction l with
  | nil => rfl
  | cons q l ih => rw [List.map_cons, parity_cons, h q, ih, Bool.xor_self]

theorem pbit_replicate_false (m i n : Nat) : pbit (List.replicate m false) i n = false := by
  refine parity_map_of_forall_eq_false _ fun q => ?_
  rw [bitAt, List.getD_eq_getElem?_getD, List.getElem?_getD_replicate_default_eq]

theorem writeParity_replicate_false (m r n : Nat) :
    writeParity (List.replicate m false) r n = List.replicate m false := by
  induction r with
  | zero => rfl
  | succ r ih => rw [writeParity_succ, ih, pbit_replicate_false, List.set_replicate_self]

/-- All-zero data gives the all-zero codeword (R90 (c)). -/
theorem enc_replicate_false (k : Nat) (rev : Bool) :
    enc (List.replicate k false) rev = List.replicate (codewordLen k) false := by
  simp [enc, place, placeFrom_replicate_false, writeParity_replicate_false, codewordLen]

/-- The reversed convention is the other one applied to the reversed data (R90 (d)). -/
theorem enc_true (d : List Bool) : enc d true = (enc d.reverse false).reverse := by
  simp [enc, place]

/-- Settles O18: the four codewords of one data bit are computed; zeros have even parity everywhere; `rev` only turns the data
round before the encoding and the codeword after it. -/
theorem encoderCornerCases : Obligations.EncoderCornerCases :=
  ⟨by decide, enc_replicate_false, enc_true⟩

end Sys2Proof.Machine
end

section
/-! ### Encoding and then decoding (42_encoder.md R95) -/

namespace Sys2Proof.Machine

/-- The Decoder is the left inverse of the Encoder: it keeps the data positions, and they hold the data. -/
theorem dec_enc (d : List Bool) (rev : Bool) : dec (enc d rev) rev = d := by
  have hstrip := strip_ppiIn (orient rev (enc d rev))
  rw [orient_length, enc_length, map_bitAt_enc] at hstrip
  rw [dec, enc_length, hstrip, orient_orient]

/-- Settles O23: `ENC` answers with the codeword `c` of `d`, `c` fits the second block because it has `n(k)` bits, and the
Decoder is the left inverse of the Encoder. -/
theorem encodeThenDecodeReturnsData : Obligations.EncodeThenDecodeReturnsData := by
  intro mode mode' rev d s hroom hd
  obtain ⟨t, hexec, hshows, -⟩ := exec_enc_shows mode rev hroom (holdsOperand_of_presents hd)
  rw [map_bitof_take_of_presents hd] at hshows
  refine ⟨t, enc d rev, hexec, hshows, fun s' hcap hc => ?_⟩
  have hroom' : hasRoom s'.cap (enc d rev).length := by rwa [hcap, enc_length]
  obtain ⟨t', hexec', hshows', -⟩ := exec_dec_shows mode' rev hroom' (holdsOperand_of_presents hc)
  rw [map_bitof_take_of_presents hc, dec_enc] at hshows'
  exact ⟨t', hexec', hshows'⟩

end Sys2Proof.Machine
end

/-! Proofs of the statements of 43_decoder.md. -/

section
/-! ### The decoded string (43_decoder.md R105, R106) -/

namespace Sys2Proof.Machine

/-- The decoded string is the bits at the data positions of the logical form, turned back when reversed (R106). -/
theorem dec_eq (C : List Bool) (rev : Bool) :
    dec C rev = orient rev ((dataPositions C.length).map (bitAt (orient rev C))) := by
  have hstrip := strip_ppiIn (orient rev C)
  rw [orient_length] at hstrip
  rw [dec, hstrip]

@[simp] theorem dec_length (C : List Bool) (rev : Bool) : (dec C rev).length = C.length - parityCount C.length := by
  rw [dec_eq, orient_length, List.length_map, dataPositions_length]

/-- Settles O20: `DEC` answers with the decoded operand string, which has `m - c(m)` bits. -/
theorem decAnswers : Obligations.DecAnswers := by
  intro mode rev m s hroom hop
  obtain ⟨t, hexec, hshows, hframe⟩ := exec_dec_shows mode rev hroom hop
  have hlen : (dec ((s.reqSym.take m).map bitof) rev).length = m - parityCount m := by
    rw [dec_length, List.length_map, List.length_take, Nat.min_eq_left hop]
  rw [Response.okBits, hlen] at hshows
  exact ⟨t, hexec, hshows, hframe⟩

/-- The bit at a position of the logical form, read from the string itself (20_memory.md R32). -/
theorem bitAt_orient {C : List Bool} {q : Nat} (rev : Bool) (h1 : 1 ≤ q) (hq : q ≤ C.length) :
    bitAt (orient rev C) q = C.getD (if rev then C.length - q else q - 1) false := by
  rw [bitAt, orient_getD rev (by omega), show C.length - 1 - (q - 1) = C.length - q by omega]

/-- Settles O21: both sides are the bit at the `t`-th data position of the logical form, read from the decoded string and from
the operand string. -/
theorem decoderClosedForm : Obligations.DecoderClosedForm := by
  refine fun C rev => ⟨dec_length C rev, fun t ht => ?_⟩
  have hpos : t < (dataPositions C.length).length := by rwa [dataPositions_length]
  obtain ⟨⟨h1, hq⟩, -⟩ := mem_dataPositions.mp (List.getElem_mem hpos)
  rw [← dec_length C rev] at ht ⊢
  rw [← orient_getD rev ht, dec_eq, orient_orient, List.getD_eq_getElem _ 0 hpos, ← bitAt_orient rev h1 hq]
  simp [List.getD_eq_getElem?_getD, hpos]

end Sys2Proof.Machine
end

section
/-! ### The Decoder is the left inverse of the Encoder (43_decoder.md R107) -/

namespace Sys2Proof.Machine

/-- The decoded string depends on the data positions of the logical form alone: parity values are ignored (R107). -/
theorem dec_congr {C D : List Bool} {rev : Bool} (hlen : C.length = D.length)
    (h : ∀ q, q ∈ dataPositions C.length → bitAt (orient rev C) q = bitAt (orient rev D) q) : dec C rev = dec D rev := by
  rw [dec_eq, dec_eq, ← hlen, List.map_congr_left h]

/-- Settles O22: the data positions of a codeword hold the data, and the Decoder reads nothing but the data positions. -/
theorem decoderIsLeftInverse : Obligations.DecoderIsLeftInverse :=
  ⟨dec_enc, fun _ _ _ => dec_congr⟩

end Sys2Proof.Machine
end

/-! Proofs of the statements of 44_corrector.md. -/

section
/-! ### The answers of COR (44_corrector.md R115, R116, R127) -/

namespace Sys2Proof.Machine

variable {s : State} {C : List Bool} {len : Nat}

@[simp] theorem cor_length (C : List Bool) (rev : Bool) : (cor C rev).length = C.length - parityCount C.length := by
  simp [cor]

/-- The validation fails exactly on the two causes of R116: an empty string, or a non-binary symbol below `len`. -/
theorem invalidInput_take_iff (hop : s.holdsOperand len) :
    invalidInput (s.reqSym.take len) = true ↔ len = 0 ∨ ∃ j, j < len ∧ (s.reqSym.getD j Sym.zero).x = true := by
  rw [invalidInput, Bool.or_eq_true, List.isEmpty_iff_length_eq_zero, List.length_take, Nat.min_eq_left hop,
    List.any_eq_true]
  refine or_congr_right ⟨?_, ?_⟩
  · rintro ⟨y, hy, hx⟩
    obtain ⟨j, hj, rfl⟩ := List.mem_take_iff_getElem.mp hy
    obtain ⟨hlen, hsym⟩ := lt_min_iff.mp hj
    exact ⟨j, hlen, by simpa [isbin, hsym] using hx⟩
  · rintro ⟨j, hlen, hx⟩
    have hsym : j < s.reqSym.length := hlen.trans_le hop
    refine ⟨s.reqSym[j], List.mem_take_iff_getElem.mpr ⟨j, lt_min hlen hsym, rfl⟩, ?_⟩
    simpa [isbin, hsym] using hx

/-- `COR` answers with its response to the operand string (R115). -/
theorem exec_cor_shows (mode rev : Bool) (hop : s.holdsOperand len) :
    ∃ t, exec (.cor mode rev len) s = .next t ∧ t.shows (corResponse s.cap rev len (s.reqSym.take len)) ∧
      s.sameButResponse t :=
  exec_shows_of_holdsOperand (i := .cor mode rev len) hop

/-- `COR` of a non-empty bit string answers with the corrected string (R115). -/
theorem exec_cor_shows_of_presents (mode rev : Bool) (hne : C ≠ []) (hroom : hasRoom s.cap C.length)
    (hC : s.presents C) :
    ∃ t, exec (.cor mode rev C.length) s = .next t ∧ t.shows (.okBits (cor C rev)) ∧ s.sameButResponse t := by
  have hvalid : invalidInput (s.reqSym.take C.length) = false := hC ▸ invalidInput_ofBit hne
  have hcor := exec_cor_shows mode rev (holdsOperand_of_presents hC)
  rwa [corResponse_of_valid hroom hvalid, map_bitof_take_of_presents hC] at hcor

/-- `COR` of a string that fails the validation answers with the error response (R116). -/
theorem exec_cor_shows_invalidInput (mode rev : Bool) (hroom : hasRoom s.cap len) (hop : s.holdsOperand len)
    (hbad : len = 0 ∨ ∃ j, j < len ∧ (s.reqSym.getD j Sym.zero).x = true) :
    ∃ t, exec (.cor mode rev len) s = .next t ∧ t.shows (.error .invalidInput) ∧ s.sameButResponse t := by
  have hcor := exec_cor_shows mode rev hop
  rwa [corResponse_of_invalid hroom ((invalidInput_take_iff hop).mpr hbad)] at hcor

/-- Settles O24: the string passes the validation, and its corrected form has `m - c(m)` bits. -/
theorem corAnswers : Obligations.CorAnswers := by
  intro mode rev C s hne hroom hC
  have hcor := exec_cor_shows_of_presents mode rev hne hroom hC
  rwa [Response.okBits, cor_length] at hcor

/-- Settles O35: either cause makes the validation fail, after the capacity check has passed. -/
theorem corRejectsInvalidInput : Obligations.CorRejectsInvalidInput :=
  fun mode rev _ _ => exec_cor_shows_invalidInput mode rev

/-- Settles O28: both operations answer with a string of `m - c(m)` bits. -/
theorem correctorIsTotalAfterValidation : Obligations.CorrectorIsTotalAfterValidation := by
  intro mode rev C s hlen hroom hC
  obtain ⟨t, hexec, ⟨-, hst, hcor, -⟩, -⟩ :=
    exec_cor_shows_of_presents mode rev (List.length_pos_iff.mp hlen) hroom hC
  obtain ⟨t', hexec', ⟨-, -, hdec, -⟩, -⟩ := exec_dec_shows mode rev hroom (holdsOperand_of_presents hC)
  rw [map_bitof_take_of_presents hC] at hdec
  have hcorLen : t.rspLen = C.length - parityCount C.length := hcor.trans (cor_length C rev)
  have hdecLen : t'.rspLen = C.length - parityCount C.length := hdec.trans (dec_length C rev)
  exact ⟨t, t', hexec, hexec', hst, hcorLen.trans hdecLen.symm, hcorLen⟩

end Sys2Proof.Machine
end

section
/-! ### The syndrome (44_corrector.md R119, R120) -/

namespace Sys2Proof.Machine

variable {W : List Bool} {i r : Nat}

/-- The sum of `2^i` over the first `r` checks that fail (R119). -/
def failedSum (fails : Nat → Bool) (r : Nat) : Nat :=
  (List.range r).foldl (fun E i => if fails i then E + 2 ^ i else E) 0

theorem failedSum_succ (fails : Nat → Bool) (r : Nat) :
    failedSum fails (r + 1) = 2 ^ r * (fails r).toNat + failedSum fails r := by
  rw [failedSum, List.range_succ, List.foldl_append, ← failedSum]
  cases h : fails r <;> simp [h, Nat.add_comm]

theorem failedSum_lt (fails : Nat → Bool) (r : Nat) : failedSum fails r < 2 ^ r := by
  induction r with
  | zero => exact Nat.one_pos
  | succ r ih =>
    have hbit : 2 ^ r * (fails r).toNat ≤ 2 ^ r * 1 := Nat.mul_le_mul_left _ (Bool.toNat_le _)
    rw [failedSum_succ, pow_succ]
    omega

/-- The powers of two are added at most once each, so that no carry occurs. -/
theorem testBit_failedSum (fails : Nat → Bool) (r i : Nat) :
    (failedSum fails r).testBit i = (decide (i < r) && fails i) := by
  induction r with
  | zero => simp [failedSum]
  | succ r ih =>
    rw [failedSum_succ, Nat.testBit_two_pow_mul_add _ (failedSum_lt fails r)]
    rcases lt_trichotomy i r with hlt | rfl | hgt
    · simp [ih, hlt, hlt.trans (Nat.lt_succ_self r)]
    · rw [if_neg (lt_irrefl i), Nat.sub_self, Nat.testBit_bool_toNat]
      simp
    · have hne : i - r ≠ 0 := by omega
      simp [Nat.testBit_bool_toNat, hgt.not_gt, hne, show ¬ i < r + 1 by omega]

theorem syndrome_eq_failedSum (W : List Bool) : syndrome W = failedSum (checkBit W) (parityCount W.length) := by
  rw [syndrome, ppiIn_length, failedSum]

theorem syndrome_lt (W : List Bool) : syndrome W < 2 ^ parityCount W.length := by
  rw [syndrome_eq_failedSum]
  exact failedSum_lt _ _

/-- A parity bit whose position lies beyond the string covers nothing in it. -/
theorem checkBit_of_parityCount_le (h : parityCount W.length ≤ i) : checkBit W i = false := by
  have hlen : W.length < 2 ^ i := not_le.mp (mt lt_parityCount.mpr h.not_gt)
  have hcover : cover i W.length = [] := by
    refine List.eq_nil_iff_forall_not_mem.mpr fun q hq => ?_
    obtain ⟨⟨-, hle⟩, hcov⟩ := mem_cover.mp hq
    rw [covers_eq_testBit, Nat.testBit_lt_two_pow (hle.trans_lt hlen)] at hcov
    exact absurd hcov Bool.false_ne_true
  rw [checkBit, hcover, List.map_nil, parity_nil]

/-- Bit `i` of the syndrome is the parity `s_i` (R119), for every `i`. -/
theorem testBit_syndrome (W : List Bool) (i : Nat) : (syndrome W).testBit i = checkBit W i := by
  rw [syndrome_eq_failedSum, testBit_failedSum]
  rcases lt_or_ge i (parityCount W.length) with hlt | hge
  · simp [hlt]
  · rw [checkBit_of_parityCount_le hge, Bool.and_false]

/-- Bit `i` of an XOR of numbers is the parity of their bits `i`. -/
theorem testBit_foldl_xor (l : List Nat) (a i : Nat) :
    (l.foldl Nat.xor a).testBit i = xor (a.testBit i) (parity (l.map (Nat.testBit · i))) := by
  induction l generalizing a with
  | nil => simp
  | cons q l ih =>
    have hxor : (a.xor q).testBit i = xor (a.testBit i) (q.testBit i) := Nat.testBit_xor a q i
    rw [List.foldl_cons, ih, hxor, List.map_cons, parity_cons, Bool.xor_assoc]

/-- Of two Boolean functions, either may select and the other be read: the parity counts where both are 1. -/
theorem parity_map_filter_comm (f g : Nat → Bool) (l : List Nat) :
    parity ((l.filter f).map g) = parity ((l.filter g).map f) := by
  induction l with
  | nil => rfl
  | cons q l ih => cases hf : f q <;> cases hg : g q <;> simp [hf, hg, ih]

/-- The closed form of R119: bit `i` of both sides is the parity of the number of positions that hold a 1 and that `i` covers. -/
theorem syndrome_eq_foldl_xor (W : List Bool) :
    syndrome W = ((positions W.length).filter (bitAt W)).foldl Nat.xor 0 := by
  refine Nat.eq_of_testBit_eq fun i => ?_
  have hcovers : covers i = (Nat.testBit · i) := funext (covers_eq_testBit i)
  rw [testBit_syndrome, testBit_foldl_xor, Nat.zero_testBit, Bool.false_xor, checkBit, cover, hcovers,
    parity_map_filter_comm]

/-- The syndrome is 0 exactly when every check is even (R120). -/
theorem syndrome_eq_zero_iff : syndrome W = 0 ↔ ∀ i, i < parityCount W.length → checkBit W i = false := by
  constructor
  · intro h i _
    rw [← testBit_syndrome, h, Nat.zero_testBit]
  · intro h
    refine Nat.zero_of_testBit_eq_false fun i => ?_
    rw [testBit_syndrome]
    rcases lt_or_ge i (parityCount W.length) with hlt | hge
    · exact h i hlt
    · exact checkBit_of_parityCount_le hge

/-- Settles O25: the sum of distinct powers of two has the failed checks as its bits, and so has the XOR of the positions that
hold a 1. -/
theorem syndromeIsXorOfOnePositions : Obligations.SyndromeIsXorOfOnePositions :=
  fun W => ⟨fun i _ => testBit_syndrome W i, syndrome_eq_foldl_xor W⟩

/-- Settles O26: the syndrome has `c(m)` bits, one for each check. -/
theorem syndromeRange : Obligations.SyndromeRange :=
  fun W => ⟨Nat.le_sub_one_of_lt (syndrome_lt W), syndrome_eq_zero_iff⟩

end Sys2Proof.Machine
end

section
/-! ### The flip (44_corrector.md R121, R122) -/

namespace Sys2Proof.Machine

variable {C : List Bool} {rev : Bool}

/-- A flip of the string is a flip of its logical form, at the index counted from the other end when reversed (20_memory.md
R32). -/
theorem orient_flipIndex {j : Nat} (rev : Bool) (h : j < C.length) :
    orient rev (flipIndex C j) = flipIndex (orient rev C) (if rev then C.length - 1 - j else j) := by
  cases rev with
  | false => rfl
  | true =>
    refine List.ext_getElem (by simp) fun v hv _ => ?_
    have hv : v < C.length := by simpa using hv
    have hiff : j = C.length - 1 - v ↔ C.length - 1 - j = v := by omega
    have hback : C.length - 1 - (C.length - 1 - j) = j := by omega
    simp [flipIndex, List.getElem_set, h, hiff, hback, show C.length - 1 - j < C.length by omega]

/-- The Corrector flips the bit at the syndrome's position, in the logical form (R121), and decodes (R122). -/
theorem cor_of_syndrome_le (hpos : 0 < syndrome (orient rev C)) (hle : syndrome (orient rev C) ≤ C.length) :
    cor C rev = dec (orient rev (flipIndex (orient rev C) (syndrome (orient rev C) - 1))) rev := by
  rw [cor, flipAt_eq_flipIndex hpos (hle.trans_eq (orient_length rev C).symm)]

/-- The Corrector flips nothing when the syndrome is no position of the string (R121). -/
theorem cor_of_syndrome_outside (h : syndrome (orient rev C) = 0 ∨ C.length < syndrome (orient rev C)) :
    cor C rev = dec C rev := by
  rw [← orient_length rev C] at h
  rw [cor, flipAt_eq_self h, orient_orient]

/-- Settles O27: position `E` of the logical form is index `E - 1` of the string, or `m - E` when reversed. -/
theorem correctorFlipsAtSyndrome : Obligations.CorrectorFlipsAtSyndrome := by
  refine fun C rev => ⟨fun hpos hle => ?_, fun h => cor_of_syndrome_outside (.inl h),
    fun h => cor_of_syndrome_outside (.inr h)⟩
  have hidx : syndrome (orient rev C) - 1 < (orient rev C).length := by
    rw [orient_length]
    omega
  rw [cor_of_syndrome_le hpos hle, orient_flipIndex rev hidx, orient_orient, orient_length]
  congr 3
  omega

end Sys2Proof.Machine
end

section
/-! ### Errors in a codeword (44_corrector.md R123, R124, R125) -/

namespace Sys2Proof.Machine

variable {W : List Bool} {i j : Nat}

theorem parity_perm {as bs : List Bool} (h : as.Perm bs) : parity as = parity bs := by
  induction h with
  | nil => rfl
  | cons b _ ih => rw [parity_cons, parity_cons, ih]
  | swap a b l => simp only [parity_cons, Bool.xor_left_comm]
  | trans _ _ ih₁ ih₂ => exact ih₁.trans ih₂

theorem cover_nodup (i m : Nat) : (cover i m).Nodup :=
  ((positions_pairwise m).imp Nat.ne_of_lt).filter _

/-- A check is the bit at one of the positions it covers, and the parity of the others. -/
theorem checkBit_eq_xor_of_mem_cover {q : Nat} (h : q ∈ cover i W.length) :
    checkBit W i = xor (bitAt W q) (parity (((cover i W.length).filter (· != q)).map (bitAt W))) := by
  have hperm : (cover i W.length).Perm (q :: (cover i W.length).filter (· != q)) := by
    rw [← (cover_nodup i W.length).erase_eq_filter]
    exact List.perm_cons_erase h
  rw [checkBit, parity_perm (hperm.map (bitAt W)), List.map_cons, parity_cons]

/-- Every check of a produced codeword is even: each parity position holds the parity of the others that it covers (42_encoder.md
R93, R96). -/
theorem checkBit_enc {d : List Bool} (rev : Bool) (hi : i < parityBits d.length) :
    checkBit (orient rev (enc d rev)) i = false := by
  have hlen : (orient rev (enc d rev)).length = codewordLen d.length := by rw [orient_length, enc_length]
  have hown : 2 ^ i ∈ cover i (orient rev (enc d rev)).length := by
    rw [hlen, mem_cover, covers_eq_testBit, ← lt_parityCount, parityCount_codewordLen]
    exact ⟨⟨Nat.one_le_two_pow, hi⟩, Nat.testBit_two_pow_self⟩
  rw [checkBit_eq_xor_of_mem_cover hown, bitAt_enc_two_pow rev hi, hlen, pbit, Bool.xor_self]

/-- The syndrome of a produced codeword is 0. -/
theorem syndrome_enc (d : List Bool) (rev : Bool) : syndrome (orient rev (enc d rev)) = 0 := by
  refine syndrome_eq_zero_iff.mpr fun i hi => checkBit_enc rev ?_
  rwa [orient_length, enc_length, parityCount_codewordLen] at hi

theorem bitAt_flipIndex_same (h : j < W.length) : bitAt (flipIndex W j) (j + 1) = !bitAt W (j + 1) := by
  rw [flipIndex, bitAt_set h (Nat.le_add_left 1 j), if_pos rfl]
  rfl

theorem bitAt_flipIndex_of_ne {q : Nat} (hq : 1 ≤ q) (hne : q ≠ j + 1) : bitAt (flipIndex W j) q = bitAt W q :=
  bitAt_set_of_ne hq hne

/-- A flip turns exactly the checks that cover its position. -/
theorem checkBit_flipIndex (h : j < W.length) (i : Nat) :
    checkBit (flipIndex W j) i = xor (checkBit W i) (covers i (j + 1)) := by
  have hsame : ∀ q ∈ (cover i W.length).filter (· != j + 1), bitAt (flipIndex W j) q = bitAt W q := by
    intro q hq
    rw [List.mem_filter, mem_cover, bne_iff_ne] at hq
    obtain ⟨⟨⟨h1, -⟩, -⟩, hne⟩ := hq
    exact bitAt_flipIndex_of_ne h1 hne
  cases hc : covers i (j + 1) with
  | true =>
    have hmem : j + 1 ∈ cover i W.length := mem_cover.mpr ⟨⟨Nat.le_add_left 1 j, h⟩, hc⟩
    have hmem' : j + 1 ∈ cover i (flipIndex W j).length := by rwa [flipIndex_length]
    rw [checkBit_eq_xor_of_mem_cover hmem', checkBit_eq_xor_of_mem_cover hmem, bitAt_flipIndex_same h,
      flipIndex_length, List.map_congr_left hsame]
    simp
  | false =>
    have hall : (cover i W.length).filter (· != j + 1) = cover i W.length := by
      refine List.filter_eq_self.mpr fun q hq => bne_iff_ne.mpr ?_
      rintro rfl
      exact Bool.false_ne_true (hc.symm.trans (mem_cover.mp hq).2)
    rw [hall] at hsame
    rw [checkBit, checkBit, flipIndex_length, List.map_congr_left hsame, Bool.xor_false]

/-- A flip moves the syndrome by the flipped position. -/
theorem syndrome_flipIndex (h : j < W.length) : syndrome (flipIndex W j) = syndrome W ^^^ (j + 1) := by
  refine Nat.eq_of_testBit_eq fun i => ?_
  rw [Nat.testBit_xor, testBit_syndrome, testBit_syndrome, checkBit_flipIndex h, covers_eq_testBit]

/-- A single flipped bit of a codeword is flipped back (R123). -/
theorem cor_flipIndex_enc {d : List Bool} {rev : Bool} (h : j < (enc d rev).length) :
    cor (flipIndex (enc d rev) j) rev = d := by
  have hlogical := orient_flipIndex rev h
  generalize hp : (if rev then (enc d rev).length - 1 - j else j) = p at hlogical
  have hlt : p < (orient rev (enc d rev)).length := by
    rw [orient_length, ← hp]
    split <;> omega
  have hsyn : syndrome (orient rev (flipIndex (enc d rev) j)) = p + 1 := by
    rw [hlogical, syndrome_flipIndex hlt, syndrome_enc, Nat.zero_xor]
  have hle : p + 1 ≤ (flipIndex (enc d rev) j).length := by rwa [orient_length, ← flipIndex_length _ j] at hlt
  rw [cor_of_syndrome_le (hsyn ▸ Nat.succ_pos p) (hsyn.trans_le hle), hsyn, Nat.add_sub_cancel, hlogical,
    flipIndex_flipIndex, orient_orient, dec_enc]

/-- An unchanged codeword is decoded as it is (R124). -/
theorem cor_enc (d : List Bool) (rev : Bool) : cor (enc d rev) rev = d := by
  rw [cor_of_syndrome_outside (.inl (syndrome_enc d rev)), dec_enc]

theorem enc_eq_nil_iff {d : List Bool} {rev : Bool} : enc d rev = [] ↔ d = [] := by
  rw [← List.length_eq_zero_iff, enc_length, ← List.length_eq_zero_iff]
  constructor
  · intro h
    exact Nat.eq_zero_of_add_eq_zero_right h
  · intro h
    rw [h]
    rfl

/-- Settles O29: the corrupted codeword has the codeword's length, and the Corrector flips the flipped bit back. -/
theorem singleBitErrorIsCorrected : Obligations.SingleBitErrorIsCorrected := by
  intro mode mode' rev d s hroom hd
  obtain ⟨t, hexec, hshows, -⟩ := exec_enc_shows mode rev hroom (holdsOperand_of_presents hd)
  rw [map_bitof_take_of_presents hd] at hshows
  refine ⟨t, enc d rev, hexec, hshows, fun j s' hj hcap hc => ?_⟩
  have hlen : (flipIndex (enc d rev) j).length = (enc d rev).length := flipIndex_length _ _
  have hroom' : hasRoom s'.cap (flipIndex (enc d rev) j).length := by rwa [hcap, hlen, enc_length]
  have hne : flipIndex (enc d rev) j ≠ [] := List.ne_nil_of_length_pos (by omega)
  obtain ⟨t', hexec', hshows', -⟩ := exec_cor_shows_of_presents mode' rev hne hroom' hc
  rw [hlen] at hexec'
  rw [cor_flipIndex_enc hj] at hshows'
  exact ⟨t', hexec', hshows'⟩

/-- Settles O30: the codeword is empty exactly when the data is; otherwise its syndrome is 0 and the Corrector decodes it. -/
theorem unchangedCodewordDecodes : Obligations.UnchangedCodewordDecodes := by
  intro mode mode' rev d s hroom hd
  obtain ⟨t, hexec, hshows, -⟩ := exec_enc_shows mode rev hroom (holdsOperand_of_presents hd)
  rw [map_bitof_take_of_presents hd] at hshows
  refine ⟨t, enc d rev, hexec, hshows, fun s' hcap hc => ?_⟩
  have hroom' : hasRoom s'.cap (enc d rev).length := by rwa [hcap, enc_length]
  by_cases hnil : d = []
  · have hzero : (enc d rev).length = 0 := List.length_eq_zero_iff.mpr (enc_eq_nil_iff.mpr hnil)
    obtain ⟨t', hexec', hshows', -⟩ :=
      exec_cor_shows_invalidInput mode' rev hroom' (holdsOperand_of_presents hc) (.inl hzero)
    exact ⟨t', hexec', by rwa [if_pos hnil]⟩
  · obtain ⟨t', hexec', hshows', -⟩ := exec_cor_shows_of_presents mode' rev (mt enc_eq_nil_iff.mp hnil) hroom' hc
    rw [cor_enc] at hshows'
    exact ⟨t', hexec', by rwa [if_neg hnil]⟩

/-- Settles O31: each flip moves the syndrome by its position, from 0; the XOR of two different positive numbers is neither 0
nor one of them. -/
theorem doubleErrorSyndrome : Obligations.DoubleErrorSyndrome := by
  intro d rev a b ha hb hab
  have hlen : (orient rev (enc d rev)).length = codewordLen d.length := by rw [orient_length, enc_length]
  have hb' : b < (flipIndex (orient rev (enc d rev)) a).length := by rwa [flipIndex_length, hlen]
  refine ⟨?_, ?_, ?_, ?_⟩
  · rw [syndrome_flipIndex hb', syndrome_flipIndex (ha.trans_eq hlen.symm), syndrome_enc, Nat.zero_xor]
    rfl
  · exact Nat.xor_ne_zero_iff.mpr (by omega)
  · intro h
    exact Nat.succ_ne_zero b (Nat.xor_right_inj.mp (h.trans (Nat.xor_zero (a + 1)).symm))
  · intro h
    exact Nat.succ_ne_zero a (Nat.xor_left_inj.mp (h.trans (Nat.zero_xor (b + 1)).symm))

end Sys2Proof.Machine
end

/-! Proofs of the statements of 60_exceptions.md. -/

section
/-! ### The checks of a request and the response each leads to (60_exceptions.md R135 to R137, R141) -/

namespace Sys2Proof.Machine

variable {cap : Capacity} {i : Instr} {syms : List Sym}

/-- The length that must be within `NMAX` for an operation not to answer `CAPACITY` (60_exceptions.md R137): that of the
codeword for `IDX.O` and `ENC`, that of the operand string for the others. -/
def roomNeeded : Instr → Nat
  | .idxO _ len => codewordLen len
  | .idxI _ len => len
  | .enc _ _ len => codewordLen len
  | .dec _ _ len => len
  | .cor _ _ len => len

theorem len_le_roomNeeded (i : Instr) : i.len ≤ roomNeeded i := by
  cases i with
  | idxO _ len => exact Nat.le_add_right len _
  | idxI _ len => exact Nat.le_refl len
  | enc _ _ len => exact Nat.le_add_right len _
  | dec _ _ len => exact Nat.le_refl len
  | cor _ _ len => exact Nat.le_refl len

/-- A request beyond the capacity needs no symbols (60_exceptions.md R141). -/
theorem symbolsRead_of_over (h : ¬ hasRoom cap (roomNeeded i)) : symbolsRead cap i = 0 := by
  cases i with
  | idxO _ _ => rfl
  | idxI _ _ => rfl
  | enc _ _ len => exact if_pos (Bool.eq_true_of_not_eq_false (mt overCapacityOut_eq_false.mp h))
  | dec _ _ len => exact if_pos (exceeded_eq_true.mpr h)
  | cor _ _ len => exact if_pos (exceeded_eq_true.mpr h)

/-- The response of an operation by the first check that fails: the capacity, then the validation, which only `COR` makes
(60_exceptions.md R141). -/
theorem responseOf_cases (cap : Capacity) (i : Instr) (syms : List Sym) :
    (¬ hasRoom cap (roomNeeded i) ∧ responseOf cap i syms = .error .capacity) ∨
    ((∃ mode rev, i = .cor mode rev i.len) ∧ hasRoom cap i.len ∧ invalidInput syms = true ∧
      responseOf cap i syms = .error .invalidInput) ∨
    (hasRoom cap (roomNeeded i) ∧ (responseOf cap i syms).st = .ok) := by
  by_cases h : hasRoom cap (roomNeeded i)
  · right
    cases i with
    | idxO rev len => exact .inr ⟨h, congrArg Response.st (idxOResponse_of_room h)⟩
    | idxI rev len => exact .inr ⟨h, congrArg Response.st (idxIResponse_of_room h)⟩
    | enc mode rev len => exact .inr ⟨h, congrArg Response.st (encResponse_of_room h)⟩
    | dec mode rev len => exact .inr ⟨h, congrArg Response.st (decResponse_of_room h)⟩
    | cor mode rev len =>
      cases hv : invalidInput syms with
      | true => exact .inl ⟨⟨mode, rev, rfl⟩, h, rfl, corResponse_of_invalid h hv⟩
      | false => exact .inr ⟨h, congrArg Response.st (corResponse_of_valid h hv)⟩
  · refine .inl ⟨h, ?_⟩
    cases i with
    | idxO rev len => exact idxOResponse_of_over h
    | idxI rev len => exact idxIResponse_of_over h
    | enc mode rev len => exact encResponse_of_over h
    | dec mode rev len => exact decResponse_of_over h
    | cor mode rev len => exact corResponse_of_over h

theorem responseOf_of_over (h : ¬ hasRoom cap (roomNeeded i)) : responseOf cap i syms = .error .capacity := by
  obtain ⟨-, hresp⟩ | ⟨⟨mode, rev, hi⟩, hroom, -⟩ | ⟨hroom, -⟩ := responseOf_cases cap i syms
  · exact hresp
  · rw [hi] at h
    exact absurd hroom h
  · exact absurd hroom h

theorem responseOf_st_eq_capacity_iff : (responseOf cap i syms).st = .capacity ↔ ¬ hasRoom cap (roomNeeded i) := by
  refine ⟨fun hst => ?_, fun h => congrArg Response.st (responseOf_of_over h)⟩
  obtain ⟨h, -⟩ | ⟨-, -, -, hresp⟩ | ⟨-, hok⟩ := responseOf_cases cap i syms
  · exact h
  · simp [hresp, Response.error] at hst
  · simp [hok] at hst

theorem responseOf_st_eq_invalidInput_iff :
    (responseOf cap i syms).st = .invalidInput ↔
      (∃ mode rev, i = .cor mode rev i.len) ∧ hasRoom cap i.len ∧ invalidInput syms = true := by
  constructor
  · intro hst
    obtain ⟨-, hresp⟩ | ⟨hcor, hroom, hv, -⟩ | ⟨-, hok⟩ := responseOf_cases cap i syms
    · simp [hresp, Response.error] at hst
    · exact ⟨hcor, hroom, hv⟩
    · simp [hok] at hst
  · rintro ⟨⟨mode, rev, hi⟩, hroom, hv⟩
    rw [hi]
    exact congrArg Response.st (corResponse_of_invalid hroom hv)

/-- Every response that is not `OK` is the error response of its status (60_exceptions.md R140). -/
theorem responseOf_eq_error (h : (responseOf cap i syms).st ≠ .ok) :
    responseOf cap i syms = .error (responseOf cap i syms).st := by
  obtain ⟨-, hresp⟩ | ⟨-, -, -, hresp⟩ | ⟨-, hok⟩ := responseOf_cases cap i syms
  · rw [hresp]
    rfl
  · rw [hresp]
    rfl
  · exact absurd hok h

end Sys2Proof.Machine
end

section
/-! ### The status on the ports (60_exceptions.md R135 to R137) -/

namespace Sys2Proof.Machine

variable {s t : State} {i : Instr}

/-- The status codes are 0, 1 and 2; 3 is none (60_exceptions.md R135). -/
theorem code_cases (st : Status) : st.code = 0#2 ∨ st.code = 1#2 ∨ st.code = 2#2 := by
  cases st with
  | ok => exact .inl rfl
  | invalidInput => exact .inr (.inl rfl)
  | capacity => exact .inr (.inr rfl)

theorem code_eq_two_iff {st : Status} : st.code = 2#2 ↔ st = .capacity := by
  cases st <;> decide

theorem exec_rspSt (h : exec i s = .next t) : t.rspSt = (responseOf s.cap i (s.reqSym.take i.len)).st.code := by
  obtain ⟨-, hst, -⟩ := exec_next_shows h
  exact hst

theorem exec_rspSt_cases (h : exec i s = .next t) : t.rspSt = 0#2 ∨ t.rspSt = 1#2 ∨ t.rspSt = 2#2 := by
  rw [exec_rspSt h]
  exact code_cases _

/-- `INVALID_INPUT` is answered by a `COR` within the capacity whose string fails the validation (60_exceptions.md R136). -/
theorem exec_rspSt_eq_one_iff (h : exec i s = .next t) :
    t.rspSt = 1#2 ↔ (∃ mode rev, i = .cor mode rev i.len) ∧ hasRoom s.cap i.len ∧
      invalidInput (s.reqSym.take i.len) = true := by
  rw [exec_rspSt h, code_eq_one_iff, responseOf_st_eq_invalidInput_iff]

/-- `CAPACITY` is answered by every operation that lacks room (60_exceptions.md R137). -/
theorem exec_rspSt_eq_two_iff (h : exec i s = .next t) : t.rspSt = 2#2 ↔ ¬ hasRoom s.cap (roomNeeded i) := by
  rw [exec_rspSt h, code_eq_two_iff, responseOf_st_eq_capacity_iff]

/-- Settles O32: the status is the code of one of the three statuses, and only `COR` validates its string. -/
theorem statusCodes : Obligations.StatusCodes := by
  intro i s t h
  refine ⟨exec_rspSt_cases h, fun hst => ?_⟩
  obtain ⟨⟨mode, rev, hi⟩, -⟩ := (exec_rspSt_eq_one_iff h).mp hst
  exact ⟨mode, rev, i.len, hi⟩

end Sys2Proof.Machine
end

section
/-! ### Exactly when an operation answers `CAPACITY` (60_exceptions.md R137) -/

namespace Sys2Proof.Machine

variable {s t : State} {i : Instr} {nmax len : Nat}

/-- The search finds the largest data length up to its start whose codeword has at most `nmax` bits. -/
theorem le_kmaxLoop_iff {top : Nat} : len ≤ kmaxLoop nmax top ↔ len ≤ top ∧ codewordLen len ≤ nmax := by
  induction top with
  | zero =>
    refine ⟨fun h => ⟨h, ?_⟩, And.left⟩
    obtain rfl : len = 0 := Nat.le_zero.mp h
    exact Nat.zero_le nmax
  | succ top ih =>
    rw [kmaxLoop]
    split
    next hfit => exact ⟨fun h => ⟨h, (codewordLen_mono h).trans hfit⟩, And.left⟩
    next hbig =>
      rw [ih]
      refine and_congr_left fun hlen => ⟨fun h => h.trans (Nat.le_add_right top 1), fun h => ?_⟩
      have hne : len ≠ top + 1 := by
        rintro rfl
        exact hbig hlen
      omega

/-- `KMAX` is the largest data length whose codeword is within `NMAX` (00_scope.md R3). -/
theorem le_kmax_iff : len ≤ kmax nmax ↔ codewordLen len ≤ nmax := by
  rw [kmax, le_kmaxLoop_iff]
  exact and_iff_right_of_imp (Nat.le_add_right len _).trans

theorem lt_or_lt_codewordLen_iff : nmax < len ∨ nmax < codewordLen len ↔ nmax < codewordLen len :=
  or_iff_right_of_imp fun h => h.trans_le (Nat.le_add_right len _)

/-- Without a bound every length is within the capacity (00_scope.md R3). -/
theorem hasRoom_unbounded (n : Nat) : hasRoom .unbounded n := by
  intro nmax h
  cases h

theorem not_hasRoom_bounded_iff {n : Nat} : ¬ hasRoom (.bounded nmax) n ↔ nmax < n := by
  simp [hasRoom]

/-- In a bounded block, `CAPACITY` is answered exactly when the length that needs room exceeds `NMAX`. -/
theorem exec_rspSt_eq_two_iff_of_bounded (hcap : s.cap = .bounded nmax) (h : exec i s = .next t) :
    t.rspSt = 2#2 ↔ nmax < roomNeeded i := by
  rw [exec_rspSt_eq_two_iff h, hcap, not_hasRoom_bounded_iff]

/-- Settles O33: the operation's check is the bound on the length that needs room; a codeword longer than `NMAX` is one of more
than `KMAX` data bits, and a string longer than `NMAX` has one. -/
theorem capacityExactly : Obligations.CapacityExactly := by
  constructor
  · intro i s t hcap h hst
    exact (exec_rspSt_eq_two_iff h).mp hst (hcap ▸ hasRoom_unbounded _)
  · intro nmax mode rev len s t hcap
    refine ⟨exec_rspSt_eq_two_iff_of_bounded hcap, exec_rspSt_eq_two_iff_of_bounded hcap,
      exec_rspSt_eq_two_iff_of_bounded hcap, fun h => ?_, fun h => ?_, ?_⟩
    · exact (exec_rspSt_eq_two_iff_of_bounded hcap h).trans lt_or_lt_codewordLen_iff.symm
    · exact (exec_rspSt_eq_two_iff_of_bounded hcap h).trans lt_or_lt_codewordLen_iff.symm
    · exact lt_or_lt_codewordLen_iff.trans (not_le.symm.trans (le_kmax_iff.not.symm.trans not_le))

end Sys2Proof.Machine
end

section
/-! ### Error responses (60_exceptions.md R136, R140, R141) -/

namespace Sys2Proof.Machine

variable {s t : State} {i : Instr}

/-- An answer that is not `OK` shows the error response of some status (60_exceptions.md R140). -/
theorem exec_shows_error (h : exec i s = .next t) (hst : t.rspSt ≠ 0#2) : ∃ st, t.shows (.error st) := by
  have hne : (responseOf s.cap i (s.reqSym.take i.len)).st ≠ .ok := by
    intro hok
    exact hst ((exec_rspSt h).trans (congrArg Status.code hok))
  exact ⟨_, responseOf_eq_error hne ▸ exec_next_shows h⟩

/-- Settles O37: such an answer shows the error response, and every answer writes the response ports only. -/
theorem errorResponseIsEmpty : Obligations.ErrorResponseIsEmpty := by
  intro i s t h hst
  obtain ⟨st, hvalid, -, hlen, hbit, hidx⟩ := exec_shows_error h hst
  exact ⟨hvalid, hlen, hbit, hidx, exec_sameButResponse h⟩

/-- A `COR` within the capacity that answers has its whole operand string on the ports. -/
theorem holdsOperand_of_exec_cor {mode rev : Bool} {len : Nat} (h : exec (.cor mode rev len) s = .next t)
    (hroom : hasRoom s.cap len) : s.holdsOperand len := by
  have hread : symbolsRead s.cap (.cor mode rev len) = len :=
    if_neg (Bool.eq_false_iff.mp (overCapacityIn_eq_false.mpr hroom))
  exact hread.symm.trans_le (exec_eq_next.mp h).1

/-- Settles O34: the validation reads the operand string, which a `COR` within the capacity has on the ports; the answer shows
the error response. -/
theorem invalidInputExactly : Obligations.InvalidInputExactly := by
  intro i s t h
  constructor
  · rw [exec_rspSt_eq_one_iff h]
    refine and_congr_right fun ⟨mode, rev, hi⟩ => and_congr_right fun hroom => ?_
    rw [hi] at h
    exact invalidInput_take_iff (holdsOperand_of_exec_cor h hroom)
  · intro hst
    have hne : t.rspSt ≠ 0#2 := by
      rw [hst]
      decide
    obtain ⟨-, hlen, hbit, hidx, -, -, -, -, hsym, -⟩ := errorResponseIsEmpty i s t h hne
    exact ⟨hlen, hbit, hidx, hsym⟩

/-- An operation that lacks room answers `CAPACITY` in every state, for it reads no symbols. -/
theorem exec_shows_capacity (h : ¬ hasRoom s.cap (roomNeeded i)) :
    ∃ t, exec i s = .next t ∧ t.shows (.error .capacity) ∧ s.sameButResponse t := by
  rw [← responseOf_of_over h]
  exact exec_shows_of_symbolsRead_le ((symbolsRead_of_over h).trans_le (Nat.zero_le _))

/-- Settles O36: a request whose string or, for `IDX.O` and `ENC`, whose codeword exceeds `NMAX` lacks room. -/
theorem overCapacityAnswers : Obligations.OverCapacityAnswers := by
  constructor
  · intro i s hover
    exact exec_shows_capacity fun hroom => hover (hasRoom_mono hroom (len_le_roomNeeded i))
  · intro mode rev len s hover
    exact ⟨exec_shows_capacity (i := .idxO rev len) hover, exec_shows_capacity (i := .enc mode rev len) hover⟩

end Sys2Proof.Machine
end

section
/-! ### Every request is answered (60_exceptions.md R145) -/

namespace Sys2Proof.Machine

/-- Settles O39: the decoder accepts a length of the port's width, the ports hold every symbol that the operation reads, and
what it answers shows one of the three statuses. -/
theorem everyRequestIsAnswered : Obligations.EveryRequestIsAnswered := by
  intro s hs
  have hi : decode s.cap s.reqCmd s.reqLen = .ok (decodeCmd s.reqCmd s.reqLen) :=
    decode_eq_ok.mpr ⟨(presentable_iff.mp hs).1, rfl⟩
  obtain ⟨t, ht⟩ := execPorts_answers hs
  rw [execPorts_of_decode hi] at ht
  exact ⟨_, t, hi, ht, (exec_next_shows ht).1, exec_rspSt_cases ht⟩

end Sys2Proof.Machine
end

/-! Proofs of the statements of 70_reset_and_hazards.md. -/

section
/-! ### What disturbs a transaction (70_reset_and_hazards.md R159) -/

namespace Sys2Proof.Machine

variable {s : State} {x : Txn} {r : Request} {rest : List HostMove}

/-- The fields that the block reads: the command word, the length, and the symbols below the length (log 17). -/
theorem readsDiffer_iff {old new : Request} :
    readsDiffer old new = true ↔
      new.cmd ≠ old.cmd ∨ new.len ≠ old.len ∨ new.sym.take old.len ≠ old.sym.take old.len := by
  simp only [readsDiffer, Bool.or_eq_true, bne_iff_ne, or_assoc, ne_comm]

/-- Before the response, a host move marks the transaction exactly when it breaks the duty of R159, and keeps its copy. -/
theorem disturbIf_of_unanswered (hx : s.txn = some x) (hv : s.rspValid = false) (bad : Txn → Bool) :
    s.disturbIf bad = some { x with disturbed := x.disturbed || bad x } :=
  disturbIf_eq_some.mpr ⟨x, hx, by rw [hv, Bool.not_false, Bool.true_and]⟩

/-- Before the response, a drive moves the request fields and marks the transaction when what the block reads differs from
its copy. -/
theorem step_drive_of_unanswered (hx : s.txn = some x) (hv : s.rspValid = false) (hr : r.presentable s.cap = true)
    (hsch : s.schedule = .drive r :: rest) :
    ∃ t, step s = .next t ∧ t.portRequest = r ∧
      t.txn = some { x with disturbed := x.disturbed || readsDiffer x.request r } :=
  ⟨_, (step_of_schedule_cons hsch).trans (hostDrive_eq_next.mpr ⟨hr, rfl⟩), rfl,
    disturbIf_of_unanswered (s := { s with schedule := rest }) hx hv _⟩

/-- Before the response, lowering `req_valid` marks the transaction. -/
theorem step_lower_of_unanswered (hx : s.txn = some x) (hv : s.rspValid = false) (hsch : s.schedule = .lower :: rest) :
    ∃ t, step s = .next t ∧ t.txn = some { x with disturbed := true } :=
  ⟨_, step_of_schedule_cons hsch,
    (disturbIf_of_unanswered (s := { s with schedule := rest }) hx hv _).trans (by rw [Bool.or_true])⟩

/-- Settles O49: the mark after a drive is the old one or a difference in what the block reads; a lowering always marks. -/
theorem holdStillDuty : Obligations.HoldStillDuty := by
  intro s x rest hx hv
  constructor
  · intro r hsch hr
    obtain ⟨t, hstep, hport, htxn⟩ := step_drive_of_unanswered hx hv hr hsch
    refine ⟨t, _, hstep, htxn, rfl, hport, ?_⟩
    rw [Bool.or_eq_true, readsDiffer_iff]
  · intro hsch
    obtain ⟨t, hstep, htxn⟩ := step_lower_of_unanswered hx hv hsch
    exact ⟨t, _, hstep, htxn, rfl, rfl⟩

end Sys2Proof.Machine
end

section
/-! ### Reset in every phase (70_reset_and_hazards.md R155) -/

namespace Sys2Proof.Machine

theorem hostReset_idle (s : State) : (hostReset s).idle :=
  ⟨hostReset_reqValid s, hostReset_rspValid s, hostReset_txn s⟩

/-- Settles O46: the reset move makes the interface idle and leaves the capacity, the request fields and the later moves
alone. -/
theorem resetMoveMakesIdle : Obligations.ResetMoveMakesIdle := by
  intro s rest hsch
  exact ⟨_, step_of_schedule_cons hsch, hostReset_idle _, hostReset_cap _, hostReset_portRequest _, hostReset_schedule _⟩

end Sys2Proof.Machine
end

section
/-! ### No second request in a transaction (70_reset_and_hazards.md R162) -/

namespace Sys2Proof.Machine

/-- Settles O51: while a transaction is in progress, raising moves the wire only (log 8). -/
theorem secondRequestIsNotPresented : Obligations.SecondRequestIsNotPresented := by
  intro s rest hsch htxn
  obtain ⟨x, hx⟩ := Option.ne_none_iff_exists'.mp htxn
  rw [step_of_schedule_cons hsch, hostMove, hostRaise_of_txn (s := { s with schedule := rest }) hx]

end Sys2Proof.Machine
end

/-! Proofs of the statements on the encoding, the invariant of the interface, and the arithmetic that the units share. -/

section
/-! ### Decoding and encoding (30_encoding.md R45 to R49) -/

namespace Sys2Proof.Machine

/-- Every command word is `mode rev op` (R45). -/
theorem commandWord_fields (cmd : Cmd) : commandWord (Cmd.mode cmd) (Cmd.rev cmd) (cmd.setWidth 2) = cmd := by
  revert cmd
  decide

theorem decodeCmd_commandWord_enc (mode rev : Bool) (len : Nat) :
    decodeCmd (commandWord mode rev 0b01#2) len = .enc mode rev len := by
  cases mode <;> cases rev <;> rfl

theorem decodeCmd_commandWord_dec (mode rev : Bool) (len : Nat) :
    decodeCmd (commandWord mode rev 0b10#2) len = .dec mode rev len := by
  cases mode <;> cases rev <;> rfl

theorem decodeCmd_commandWord_cor (mode rev : Bool) (len : Nat) :
    decodeCmd (commandWord mode rev 0b11#2) len = .cor mode rev len := by
  cases mode <;> cases rev <;> rfl

/-- The four values of `op` (R46). -/
theorem op_cases (op : BitVec 2) : op = 0b00#2 ∨ op = 0b01#2 ∨ op = 0b10#2 ∨ op = 0b11#2 := by
  revert op
  decide

theorem encode_len (i : Instr) : (encode i).2 = i.len := by
  cases i <;> rfl

/-- The decoder reads back the fields that the encoder wrote. -/
theorem decodeCmd_encode (i : Instr) : decodeCmd (encode i).1 (encode i).2 = i := by
  cases i with
  | idxO rev len => exact decodeCmd_commandWord_idxO rev len
  | idxI rev len => exact decodeCmd_commandWord_idxI rev len
  | enc mode rev len => exact decodeCmd_commandWord_enc mode rev len
  | dec mode rev len => exact decodeCmd_commandWord_dec mode rev len
  | cor mode rev len => exact decodeCmd_commandWord_cor mode rev len

/-- The encoder writes back the fields that the decoder read, the ignored bit included. -/
theorem encode_decodeCmd (cmd : Cmd) (len : Nat) : encode (decodeCmd cmd len) = (cmd, len) := by
  rw [← commandWord_fields cmd]
  generalize Cmd.mode cmd = mode
  generalize Cmd.rev cmd = rev
  obtain h | h | h | h := op_cases (cmd.setWidth 2)
  · rw [h]
    cases mode with
    | false => rw [decodeCmd_commandWord_idxO, encode]
    | true => rw [decodeCmd_commandWord_idxI, encode]
  · rw [h, decodeCmd_commandWord_enc, encode]
  · rw [h, decodeCmd_commandWord_dec, encode]
  · rw [h, decodeCmd_commandWord_cor, encode]

/-- Settles O1: the decoder's test of the length is well-formedness, and past it the two read and write the same fields. -/
theorem decodeInvertsEncode : Obligations.DecodeInvertsEncode := by
  constructor
  · intro cap i hwf
    refine decode_eq_ok.mpr ⟨?_, (decodeCmd_encode i).symm⟩
    rwa [encode_len]
  · intro cap cmd len i hdec
    obtain ⟨hlen, rfl⟩ := decode_eq_ok.mp hdec
    refine ⟨?_, encode_decodeCmd cmd len⟩
    rwa [Instr.wf, decodeCmd_len]

/-- Settles O2: each word is the command word of the fields that the list names. -/
theorem commandWordsDecode : Obligations.CommandWordsDecode := fun len =>
  ⟨decodeCmd_commandWord_idxO false len, decodeCmd_commandWord_idxO true len,
    decodeCmd_commandWord_idxI false len, decodeCmd_commandWord_idxI true len,
    decodeCmd_commandWord_enc false false len, decodeCmd_commandWord_enc false true len,
    decodeCmd_commandWord_enc true false len, decodeCmd_commandWord_dec false false len,
    decodeCmd_commandWord_dec false true len, decodeCmd_commandWord_dec true true len,
    decodeCmd_commandWord_cor false false len, decodeCmd_commandWord_cor false true len,
    decodeCmd_commandWord_cor true true len⟩

/-- The encoding of every operation lies in the row of its mnemonic and in no other (30_encoding.md section 3). -/
theorem opcodeMap_row_encode (i : Instr) : Laws.TableRow.Statement i := by
  cases i with
  | idxO rev len => exact Laws.TableRow.idxO rev len
  | idxI rev len => exact Laws.TableRow.idxI rev len
  | enc mode rev len => exact Laws.TableRow.enc mode rev len
  | dec mode rev len => exact Laws.TableRow.dec mode rev len
  | cor mode rev len => exact Laws.TableRow.cor mode rev len

/-- Settles O3: the word is the encoding of the operation it decodes to, which lies in one row. -/
theorem everyCommandWordSelectsOneRow : Obligations.EveryCommandWordSelectsOneRow := by
  intro cmd len
  have hrow := opcodeMap_row_encode (decodeCmd cmd len)
  rwa [Laws.TableRow.Statement, encode_decodeCmd] at hrow

end Sys2Proof.Machine
end

section
/-! ### The invariant of the interface (10_state.md R15 to R18, 70_reset_and_hazards.md R159) -/

namespace Sys2Proof.Machine

variable {s t : State}

theorem rspFits_resetFor (cap : Capacity) : (State.resetFor cap).rspFits := by
  have hfits := rspFits_respond (State.resetFor cap) (.error .ok)
  simpa [State.rspFits, Response.error, fitLen_of_lenFits (lenFits_zero cap)] using hfits

/-- In an idle interface only the widths of the ports are left of the invariant. -/
theorem inv_of_idle (hcap : s.cap.legal = true) (hreq : s.portRequest.presentable s.cap = true) (hrsp : s.rspFits)
    (hidle : s.idle) : s.Inv := by
  have hnone : ∀ x, s.txn ≠ some x := by
    obtain ⟨-, -, htxn⟩ := hidle
    simp [htxn]
  exact {
    capLegal := hcap
    reqFits := hreq
    rspFits := hrsp
    noTxnIdle := fun _ => hidle
    copyFits := fun x hx => absurd hx (hnone x)
    heldStill := fun x hx => absurd hx (hnone x)
    answered := fun x hx => absurd hx (hnone x) }

/-- The invariant does not speak of the host's pending moves. -/
theorem inv_with_schedule (h : s.Inv) (moves : List HostMove) : ({ s with schedule := moves } : State).Inv :=
  ⟨h.capLegal, h.reqFits, h.rspFits, h.noTxnIdle, h.copyFits, h.heldStill, h.answered⟩

theorem readsDiffer_eq_false_iff {old new : Request} :
    readsDiffer old new = false ↔
      new.cmd = old.cmd ∧ new.len = old.len ∧ new.sym.take old.len = old.sym.take old.len := by
  rw [← Bool.not_eq_true, readsDiffer_iff]
  simp only [ne_eq, not_or, not_not]

/-- Requests that agree in what the block reads have the same response (00_scope.md R4). -/
theorem requestResponse_congr {cap : Capacity} {old new : Request} (h : readsDiffer old new = false) :
    requestResponse cap new = requestResponse cap old := by
  obtain ⟨hcmd, hlen, hsym⟩ := readsDiffer_eq_false_iff.mp h
  rw [requestResponse, requestResponse, hcmd, hlen, hsym]

/-- A request agrees with itself in what the block reads. -/
theorem readsDiffer_self (r : Request) : readsDiffer r r = false :=
  readsDiffer_eq_false_iff.mpr ⟨rfl, rfl, rfl⟩

/-- Taking the response back leaves an idle interface (10_state.md R17 phase 4). -/
theorem inv_goIdle (h : s.Inv) (hq : s.reqValid = false) : s.goIdle.Inv :=
  inv_of_idle h.capLegal h.reqFits (rspFits_freeRsp s) ⟨hq, rfl, rfl⟩

/-- A free response in a disturbed transaction: the invariant says nothing of its value (log 4). -/
theorem inv_respondFree (h : s.Inv) {x : Txn} (hx : s.txn = some x) (hd : x.disturbed = true) : s.respondFree.Inv where
  capLegal := h.capLegal
  reqFits := h.reqFits
  rspFits := rspFits_freeRsp s
  noTxnIdle hnone := absurd (hx.symm.trans hnone) (Option.some_ne_none x)
  copyFits := h.copyFits
  heldStill _ _ _ hv := absurd hv.symm Bool.false_ne_true
  answered y hy hdy _ := by
    obtain rfl : x = y := Option.some.inj (hx.symm.trans hy)
    exact absurd (hdy.symm.trans hd) Bool.false_ne_true

/-- The answer to the request on the ports answers the transaction's request, which they still hold. -/
theorem inv_of_execPorts (h : s.Inv) {x : Txn} (hx : s.txn = some x) (hv : s.rspValid = false)
    (hexec : execPorts s = .next t) : t.Inv := by
  obtain ⟨resp, hresp, rfl, hshows⟩ := execPorts_next hexec
  exact {
    capLegal := h.capLegal
    reqFits := h.reqFits
    rspFits := rspFits_respond s resp
    noTxnIdle := fun hnone => absurd (hx.symm.trans hnone) (Option.some_ne_none x)
    copyFits := h.copyFits
    heldStill := fun _ _ _ hv' => absurd hv'.symm Bool.false_ne_true
    answered := by
      intro y hy hd _
      obtain ⟨-, hheld⟩ := h.heldStill y hy hd hv
      exact ⟨resp, (requestResponse_congr hheld).symm.trans hresp, hshows⟩ }

/-- The block's move keeps the invariant in every phase. -/
theorem blockMove_keeps_inv (h : s.Inv) (hmove : blockMove s = .next t) : t.Inv := by
  obtain ⟨-, rfl⟩ | ⟨_, -, -, -, rfl⟩ | ⟨_, -, -, hq, rfl⟩ | ⟨x, hx, -, hd, rfl⟩ | ⟨x, i, hx, hv, -, hi, hexec⟩ :=
    blockMove_cases hmove
  · exact h
  · exact h
  · exact inv_goIdle h hq
  · exact inv_respondFree h hx hd
  · exact inv_of_execPorts h hx hv ((execPorts_of_decode hi).trans hexec)

/-- Marking a transaction keeps the copy of its request (10_state.md R17). -/
theorem disturbIf_copyFits (h : s.Inv) {bad : Txn → Bool} {y : Txn} (hy : s.disturbIf bad = some y) :
    y.request.presentable s.cap = true := by
  obtain ⟨x, hx, rfl⟩ := disturbIf_eq_some.mp hy
  exact h.copyFits x hx

/-- Once the response is presented, no mark is set and the response is still the transaction's. -/
theorem disturbIf_answered (h : s.Inv) {bad : Txn → Bool} {y : Txn} (hy : s.disturbIf bad = some y)
    (hd : y.disturbed = false) (hv : s.rspValid = true) :
    ∃ r, requestResponse s.cap y.request = some r ∧ s.shows r := by
  rw [disturbIf_of_rspValid hv] at hy
  exact h.answered y hy hd hv

/-- Before the response, a transaction that a host move leaves unmarked was unmarked, and the move broke no duty of R159. -/
theorem disturbIf_undisturbed {bad : Txn → Bool} {y : Txn} (hy : s.disturbIf bad = some y) (hd : y.disturbed = false)
    (hv : s.rspValid = false) : s.txn = some y ∧ bad y = false := by
  obtain ⟨⟨request, disturbed⟩, hx, rfl⟩ := disturbIf_eq_some.mp hy
  simp only [hv, Bool.not_false, Bool.true_and, Bool.or_eq_false_iff] at hd ⊢
  obtain ⟨rfl, hbad⟩ := hd
  simpa [hbad] using hx

/-- A drive of other values than the block reads marks the transaction, so that an unmarked request is still on the ports. -/
theorem hostDrive_keeps_inv {r : Request} (h : s.Inv) (hmove : hostDrive r s = .next t) : t.Inv := by
  obtain ⟨hr, rfl⟩ := hostDrive_eq_next.mp hmove
  exact {
    capLegal := h.capLegal
    reqFits := hr
    rspFits := h.rspFits
    noTxnIdle := by
      intro hnone
      obtain ⟨hq, hv, -⟩ := h.noTxnIdle (disturbIf_eq_none.mp hnone)
      exact ⟨hq, hv, hnone⟩
    copyFits := fun _ hy => disturbIf_copyFits h hy
    heldStill := by
      intro y hy hd hv
      obtain ⟨hx, hread⟩ := disturbIf_undisturbed hy hd hv
      obtain ⟨hq, -⟩ := h.heldStill y hx hd hv
      exact ⟨hq, hread⟩
    answered := fun _ hy hd hv => disturbIf_answered h hy hd hv }

/-- Raising `req_valid` in an idle interface begins a transaction with the request on the ports. -/
theorem inv_hostRaise_of_idle (h : s.Inv) (hx : s.txn = none) : (hostRaise s).Inv := by
  obtain ⟨-, hv, -⟩ := h.noTxnIdle hx
  rw [hostRaise_of_idle hx]
  exact {
    capLegal := h.capLegal
    reqFits := h.reqFits
    rspFits := h.rspFits
    noTxnIdle := fun hnone => absurd hnone (Option.some_ne_none _)
    copyFits := by
      intro y hy
      obtain rfl : ⟨s.portRequest, false⟩ = y := Option.some.inj hy
      exact h.reqFits
    heldStill := by
      intro y hy _ _
      obtain rfl : ⟨s.portRequest, false⟩ = y := Option.some.inj hy
      exact ⟨rfl, readsDiffer_self _⟩
    answered := fun _ _ _ hv' => absurd (hv.symm.trans hv') Bool.false_ne_true }

/-- Raising `req_valid` in a transaction moves the wire only (log 8). -/
theorem inv_hostRaise_of_txn (h : s.Inv) {x : Txn} (hx : s.txn = some x) : (hostRaise s).Inv := by
  rw [hostRaise_of_txn hx]
  exact {
    capLegal := h.capLegal
    reqFits := h.reqFits
    rspFits := h.rspFits
    noTxnIdle := fun hnone => absurd (hx.symm.trans hnone) (Option.some_ne_none x)
    copyFits := h.copyFits
    heldStill := by
      intro y hy hd hv
      obtain ⟨-, hheld⟩ := h.heldStill y hy hd hv
      exact ⟨rfl, hheld⟩
    answered := h.answered }

theorem hostRaise_keeps_inv (h : s.Inv) : (hostRaise s).Inv := by
  cases hx : s.txn with
  | none => exact inv_hostRaise_of_idle h hx
  | some x => exact inv_hostRaise_of_txn h hx

/-- Lowering `req_valid` marks an unanswered transaction, so that the invariant asks no held request of it. -/
theorem hostLower_keeps_inv (h : s.Inv) : (hostLower s).Inv where
  capLegal := h.capLegal
  reqFits := h.reqFits
  rspFits := h.rspFits
  noTxnIdle := by
    intro hnone
    obtain ⟨-, hv, -⟩ := h.noTxnIdle (disturbIf_eq_none.mp hnone)
    exact ⟨rfl, hv, hnone⟩
  copyFits _ hy := disturbIf_copyFits h hy
  heldStill := by
    intro y hy hd hv
    obtain ⟨-, hbad⟩ := disturbIf_undisturbed hy hd hv
    exact absurd hbad.symm Bool.false_ne_true
  answered _ hy hd hv := disturbIf_answered h hy hd hv

/-- Reset leaves an idle interface (70_reset_and_hazards.md R155). -/
theorem hostReset_keeps_inv (h : s.Inv) : (hostReset s).Inv :=
  inv_of_idle h.capLegal h.reqFits (rspFits_freeRsp s) (hostReset_idle s)

/-- Every move, of the host or of the block, keeps the invariant. -/
theorem hostMove_keeps_inv {m : HostMove} (h : s.Inv) (hmove : hostMove m s = .next t) : t.Inv := by
  cases m with
  | hold => exact blockMove_keeps_inv h hmove
  | drive r => exact hostDrive_keeps_inv h hmove
  | raise =>
    obtain rfl : hostRaise s = t := Host.Outcome.next.inj hmove
    exact hostRaise_keeps_inv h
  | lower =>
    obtain rfl : hostLower s = t := Host.Outcome.next.inj hmove
    exact hostLower_keeps_inv h
  | reset =>
    obtain rfl : hostReset s = t := Host.Outcome.next.inj hmove
    exact hostReset_keeps_inv h

/-- Settles O43: a step is the block's move, or the next move of the host with the later ones left. -/
theorem stepKeepsInterfaceInvariant : Obligations.StepKeepsInterfaceInvariant := by
  intro s t h hstep
  cases hsch : s.schedule with
  | nil =>
    rw [step_of_schedule_nil hsch] at hstep
    exact blockMove_keeps_inv h hstep
  | cons m rest =>
    rw [step_of_schedule_cons hsch] at hstep
    exact hostMove_keeps_inv (inv_with_schedule h rest) hstep

/-- Settles O44: the interface is idle, and the ports hold values of their widths. -/
theorem resetMeetsInvariant : Obligations.ResetMeetsInvariant := by
  have hreset : ∀ cap : Capacity, cap.legal = true → (State.resetFor cap).Inv := fun cap hcap =>
    inv_of_idle hcap (zeroSyms_presentable cap 0#4) (rspFits_resetFor cap) ⟨rfl, rfl, rfl⟩
  exact ⟨hreset, hreset Config.resetCapacity (by decide)⟩

end Sys2Proof.Machine
end

section
/-! ### A table word on the ports runs next (30_encoding.md section 3) -/

namespace Sys2Proof.Machine

/-- The block is about to answer the table word that is placed on its ports (log 13). -/
theorem withFetchWord_ready (s : State) (nbits w : Nat) : (s.withFetchWord nbits w).ready :=
  ⟨_, withFetchWord_txn s nbits w, rfl, withFetchWord_rspValid s nbits w⟩

theorem decodeTableWord_eq_some {nbits w : Nat} {i : Instr} (h : decodeTableWord nbits w = some i) :
    i = decodeCmd (tableCommand nbits w) 0 := by
  unfold decodeTableWord at h
  rw [decode_eq_ok.mpr ⟨lenFits_zero _, rfl⟩] at h
  exact (Option.some.inj h).symm

/-- Settles O42: the block that is about to answer runs the operation on its ports, which is the table word's. -/
theorem fetchWordRunsNext : Obligations.FetchWordRunsNext := by
  intro s nbits w i hi
  obtain ⟨hnil, -⟩ := stepRunsDecodedOperation _ i (withFetchWord_ready s nbits w)
    (decode_eq_ok.mpr ⟨lenFits_zero _, decodeTableWord_eq_some hi⟩)
  exact hnil (withFetchWord_schedule s nbits w)

end Sys2Proof.Machine
end

section
/-! ### A disturbed transaction returns to idle (70_reset_and_hazards.md R159, 10_state.md R17) -/

namespace Sys2Proof.Machine

/-- The host holds, and the block presents a free response to a disturbed transaction (log 4). -/
theorem step_hold_of_disturbed {s : State} {x : Txn} {rest : List HostMove} (hx : s.txn = some x)
    (hd : x.disturbed = true) (hv : s.rspValid = false) (hsch : s.schedule = .hold :: rest) :
    ∃ t, step s = .next t ∧ t.rspValid = true ∧ t.txn = some x ∧ t.portRequest = s.portRequest ∧ t.cap = s.cap ∧
      t.schedule = rest :=
  ⟨_, (step_of_hold hsch).trans (blockMove_of_disturbed (s := { s with schedule := rest }) hx hv hd), rfl, hx, rfl, rfl,
    rfl⟩

/-- Settles O50: the free response is presented as any other, and the last two moves of the handshake follow. -/
theorem disturbedTransactionReturnsToIdle : Obligations.DisturbedTransactionReturnsToIdle := by
  intro s x rest hx hd hv hsch
  obtain ⟨s1, h1, hv1, hx1, hport1, hcap1, hsch1⟩ := step_hold_of_disturbed hx hd hv hsch
  obtain ⟨s2, h2, htxn2, hv2, hq2, hcap2, hsch2⟩ := step_lower_of_answered hv1 hsch1
  obtain ⟨s3, h3, hidle3, hcap3, hsch3⟩ := step_hold_of_taken (htxn2.trans hx1) hv2 hq2 hsch2
  refine ⟨s1, s3, h1, hv1, hport1, ?_, hidle3, ?_, hsch3⟩
  · rw [runSteps_succ_of_next 1 h2, runSteps_one, h3]
  · rw [hcap3, hcap2, hcap1]

end Sys2Proof.Machine
end

section
/-! ### Coverage (40_position_arithmetic.md R63, R64) -/

namespace Sys2Proof.Machine

variable {i j q m : Nat}

/-- A position from 1 on has a bit that is set. -/
theorem exists_covers (h : 1 ≤ q) : ∃ i, covers i q = true := by
  obtain ⟨i, hi⟩ := Nat.exists_testBit_of_ne_zero (Nat.one_le_iff_ne_zero.mp h)
  exact ⟨i, (covers_eq_testBit i q).trans hi⟩

/-- A parity position is covered by its own parity bit and by no other (R64 (a)). -/
theorem covers_two_pow : covers i (2 ^ j) = true ↔ i = j := by
  rw [covers_eq_testBit, Nat.testBit_two_pow, decide_eq_true_eq, eq_comm]

/-- A parity bit whose position lies in the string covers it. -/
theorem two_pow_mem_cover (h : 2 ^ i ≤ m) : 2 ^ i ∈ cover i m :=
  mem_cover.mpr ⟨⟨Nat.one_le_two_pow, h⟩, covers_two_pow.mpr rfl⟩

/-- The sum of the powers of two of the checks that fail, as a sum over the list of those checks. -/
theorem sum_two_pow_filter (fails : Nat → Bool) (r : Nat) :
    (((List.range r).filter fails).map (2 ^ ·)).sum = failedSum fails r := by
  induction r with
  | zero => rfl
  | succ r ih =>
    rw [failedSum_succ, List.range_succ, List.filter_append, List.map_append, List.sum_append, ih, Nat.add_comm]
    cases h : fails r <;> simp [h]

/-- A number is the sum of its bits' values (R64 (c)). -/
theorem failedSum_testBit (q : Nat) : failedSum q.testBit q = q := by
  refine Nat.eq_of_testBit_eq fun i => ?_
  rw [testBit_failedSum]
  rcases lt_or_ge i q with hlt | hge
  · rw [decide_eq_true hlt, Bool.true_and]
  · rw [Nat.testBit_lt_two_pow (hge.trans_lt Nat.lt_two_pow_self), Bool.and_false]

/-- A position is the sum of the positions of the parity bits that cover it (R64 (c)). -/
theorem sum_two_pow_covers (q : Nat) : (((List.range q).filter fun i => covers i q).map (2 ^ ·)).sum = q := by
  have hcovers : (fun i => covers i q) = q.testBit := funext fun i => covers_eq_testBit i q
  rw [hcovers, sum_two_pow_filter, failedSum_testBit]

/-- Settles O6: coverage is bit membership, a power of two has one bit, and a number is the sum of its bits' values. -/
theorem coverageProperties : Obligations.CoverageProperties := by
  refine ⟨fun q => exists_covers, fun i => covers_two_pow.mpr rfl, fun i j => covers_two_pow.mp, fun i m q hq => ?_,
    fun W V i n => pbit_congr, fun q => (sum_two_pow_covers q).symm, fun i m => two_pow_mem_cover⟩
  exact ispar_eq_false_of_covers (mem_cover.mp hq).2

end Sys2Proof.Machine
end

section
/-! ### Parity and data positions of a length (40_position_arithmetic.md R66, R69) -/

namespace Sys2Proof.Machine

/-- Settles O7: the parity positions are the first `c(m)` powers of two, and the rest keeps the order of the positions. -/
theorem parityAndDataPositionsOfLength : Obligations.ParityAndDataPositionsOfLength := by
  refine fun m => ⟨positions_filter_ispar m, fun i => lt_parityCount.symm, dataPositions_length m,
    (positions_pairwise m).filter _, fun q => ?_⟩
  rw [mem_dataPositions, and_assoc]

end Sys2Proof.Machine
end

section
/-! ### Data lengths and codeword lengths (40_position_arithmetic.md R68, R71) -/

namespace Sys2Proof.Machine

variable {k m : Nat}

/-- Settles O9: the range of data lengths of `r` parity bits, which is empty for one parity bit. -/
theorem dataLengthsOfEachParityCount : Obligations.DataLengthsOfEachParityCount := by
  constructor
  · intro k r hr
    obtain ⟨r, rfl⟩ : ∃ r', r = r' + 1 := ⟨r - 1, by omega⟩
    exact parityBits_eq_succ_iff
  · intro k hone
    have hrange := parityBits_eq_succ_iff.mp hone
    omega

theorem codewordLen_zero : codewordLen 0 = 0 := rfl

theorem parityBits_mono : Monotone parityBits := by
  intro j k h
  have hk := (parityBits_spec k).1
  exact parityBits_le_of (by omega)

theorem codewordLen_strictMono : StrictMono codewordLen :=
  fun _ _ h => Nat.add_lt_add_of_lt_of_le h (parityBits_mono h.le)

/-- The codeword of one or more data bits lies strictly between two powers of two, so that its length is none. -/
theorem codewordLen_ne_two_pow (h : 1 ≤ k) (i : Nat) : codewordLen k ≠ 2 ^ i := by
  intro hi
  have hlo : 2 ^ (parityBits k - 1) < 2 ^ i := hi ▸ two_pow_parityBits_sub_one_lt h
  have hhi : 2 ^ i < 2 ^ parityBits k := hi ▸ codewordLen_lt_two_pow k
  rw [Nat.pow_lt_pow_iff_right (by decide)] at hlo hhi
  omega

/-- Every positive length that is no power of two is a codeword's: its data bits are the positions besides the parity
positions. -/
theorem codewordLen_sub_parityCount (hpos : 1 ≤ m) (hne : ∀ i, m ≠ 2 ^ i) : codewordLen (m - parityCount m) = m := by
  obtain ⟨r, hr⟩ : ∃ r, parityCount m = r + 1 := Nat.exists_eq_add_one.mpr (lt_parityCount.mpr hpos)
  have hlo : 2 ^ r ≤ m := lt_parityCount.mp (hr ▸ Nat.lt_succ_self r)
  have hhi : m < 2 ^ (r + 1) := not_le.mp (mt lt_parityCount.mpr (hr ▸ lt_irrefl _))
  have hle := parityCount_le m
  have hlt : 2 ^ r < m := hlo.lt_of_ne (hne r).symm
  have hbits : parityBits (m - parityCount m) = r + 1 := parityBits_eq_succ_iff.mpr (by omega)
  rw [codewordLen, hbits]
  omega

/-- The codeword lengths are 0 and the positive numbers that are no power of two (R71 (c)). -/
theorem exists_codewordLen_eq_iff : (∃ k, codewordLen k = m) ↔ m = 0 ∨ (1 ≤ m ∧ ∀ i, m ≠ 2 ^ i) := by
  constructor
  · rintro ⟨k, rfl⟩
    rcases Nat.eq_zero_or_pos k with rfl | hk
    · exact .inl codewordLen_zero
    · exact .inr ⟨hk.trans_le (Nat.le_add_right k _), codewordLen_ne_two_pow hk⟩
  · rintro (rfl | ⟨hpos, hne⟩)
    · exact ⟨0, codewordLen_zero⟩
    · exact ⟨_, codewordLen_sub_parityCount hpos hne⟩

/-- The two smallest positive numbers are powers of two. -/
theorem three_le_of_ne_two_pow (hpos : 1 ≤ m) (hne : ∀ i, m ≠ 2 ^ i) : 3 ≤ m := by
  have h0 : m ≠ 1 := hne 0
  have h1 : m ≠ 2 := hne 1
  omega

/-- Settles O10: a codeword's length lies strictly between two powers of two, and every such number is one. -/
theorem codewordLengths : Obligations.CodewordLengths := by
  refine ⟨fun _ => rfl, fun _ _ h => codewordLen_strictMono h, parityCount_codewordLen, fun m => ?_, fun k hk => ?_⟩
  · rw [exists_codewordLen_eq_iff]
    refine or_congr_right (and_congr_left fun hne => ⟨fun hpos => three_le_of_ne_two_pow hpos hne, fun h3 => ?_⟩)
    omega
  · refine Bool.eq_false_iff.mpr fun hpar => ?_
    obtain ⟨i, hi⟩ := ispar_iff.mp hpar
    exact codewordLen_ne_two_pow hk i hi

end Sys2Proof.Machine
end

section
/-! ### The two indexers agree, and produced checks are even (41_parity_position_indexer.md R80, 42_encoder.md R96) -/

namespace Sys2Proof.Machine

/-- Settles O12: the walk of the Encoder's indexer stops at the codeword's end with the parity indices up to it. -/
theorem indexersAgreeOnCodewords : Obligations.IndexersAgreeOnCodewords :=
  fun k => (ppiOut_eq_ppiIn k).symm

/-- Settles O17: each parity position holds the parity of the others that it covers, so that the syndrome, which is the XOR of
the positions that hold a 1, is 0. -/
theorem producedChecksAreEven : Obligations.ProducedChecksAreEven := by
  intro d rev
  have hlen : (orient rev (enc d rev)).length = codewordLen d.length := by rw [orient_length, enc_length]
  rw [← hlen]
  refine ⟨fun i hi => checkBit_enc rev hi, ?_⟩
  rw [← syndrome_eq_foldl_xor, syndrome_enc]

end Sys2Proof.Machine
end
